-- ==== Sys2Proof/Word.lean ====
section
/-!
DEFINITION. The word types of the machine and the names of its fixed-width quantities (spec R8, R91).
Every quantity of this machine is unsigned (R8).
-/
namespace Sys2Proof

/-- One byte: a V register, a timer, a memory byte, the field KK (R20, R26, R27, R28, R91). -/
abbrev Byte := BitVec 8

/-- Sixteen bits: PC, I, a stack entry, an instruction word (R22, R23, R24, R90). -/
abbrev Word := BitVec 16

/-- A four-bit field of an instruction word (R91: class, Y, N). -/
abbrev Nibble := BitVec 4

/-- The twelve-bit address field NNN (R91). -/
abbrev Addr12 := BitVec 12

/-- The number of a general register, V0 to VF (R20). -/
abbrev Reg := Fin 16

/-- VF, the register that flag-writing instructions also write (R21). -/
abbrev vF : Reg := 15

/-- V0, the implicit operand of `BNNN` (R20, R147). -/
abbrev v0 : Reg := 0

end Sys2Proof
end

