-- ==== Sys2Proof/Config.lean ====
section
/-!
DEFINITION. What is fixed for the machine and is not state (spec R5, R30, R36), and the free values: what the host
or the spec leaves open, as constants without a body.
-/
namespace Sys2Proof

/-- MEM_SIZE: bytes of memory (R5, R28). -/
abbrev Config.memSize : Nat := 4096

/-- PROG_BASE: where a program is loaded and where PC starts (R5, R22, R284). -/
abbrev Config.progBase : Nat := 0x200

/-- The longest ROM that `LoadRom` accepts, `4096 - 0x200` bytes (R5, R282). -/
abbrev Config.maxRom : Nat := 3584

/-- Entries of the return stack (R24). -/
abbrev Config.stackDepth : Nat := 16

/-- FONT, the 80 font bytes, 16 glyphs of 5 bytes, top row first (R30).
PRESUMED (log entry 1): the spec makes FONT a parameter and states this table as its default (R5, R30). -/
def Config.font : List Byte :=
  [0xF0, 0x90, 0x90, 0x90, 0xF0] ++ [0x20, 0x60, 0x20, 0x20, 0x70] ++
  [0xF0, 0x10, 0xF0, 0x80, 0xF0] ++ [0xF0, 0x10, 0xF0, 0x10, 0xF0] ++
  [0x90, 0x90, 0xF0, 0x10, 0x10] ++ [0xF0, 0x80, 0xF0, 0x10, 0xF0] ++
  [0xF0, 0x80, 0xF0, 0x90, 0xF0] ++ [0xF0, 0x10, 0x20, 0x40, 0x40] ++
  [0xF0, 0x90, 0xF0, 0x90, 0xF0] ++ [0xF0, 0x90, 0xF0, 0x10, 0xF0] ++
  [0xF0, 0x90, 0xF0, 0x90, 0x90] ++ [0xE0, 0x90, 0xE0, 0x90, 0xE0] ++
  [0xF0, 0x80, 0x80, 0x80, 0xF0] ++ [0xE0, 0x90, 0x90, 0x90, 0xE0] ++
  [0xF0, 0x80, 0xF0, 0x80, 0xF0] ++ [0xF0, 0x80, 0xF0, 0x80, 0x80]

/-- The byte that Reset leaves at address `a`: the font at 0x000 to 0x04F, zero above it (R28, R68, R280). -/
def Config.resetByte (a : Nat) : Byte := Config.font.getD a 0

/-- FREE VALUE (log entry 3): the key states that the host drives at the `n`-th Cycle whose arguments no queued
event gives (R5, R32: "free values owned by the host"). -/
opaque Config.hostKeys : Nat → BitVec 16

/-- FREE VALUE (log entry 3): the random byte delivered at the `n`-th Cycle whose arguments no queued event gives
(R5, R34: "a free value under no law"). -/
opaque Config.hostRnd : Nat → Byte

/-- FREE VALUE (log entry 5): what reading stack entry `n` gives for `n` above 15, an entry that does not exist and
that no run from reset reads (R24, R35). -/
opaque Config.absentStackEntry : Nat → Word

end Sys2Proof
end

