-- ==== Sys2Proof/Machine/State.lean ====
section
/-!
DEFINITION. The state of the machine (spec 10_state.md), plain data, and the state after reset (R38, R280).
The last four fields are the MODEL's own and not the block's: the arguments of the coming Cycle, the events that the
host has queued, the report of the last LoadRom, and the counter of the free inputs (log entries 2, 3, 4).
-/
namespace Sys2Proof.Machine

/-- The arguments of one Cycle event (R6, R120): inputs of the block, not state of it (R32, R33, R34). -/
structure Inputs where
  /-- `paused`: 1 makes the Cycle do nothing (R33, R121). -/
  paused : Bool
  /-- `KEYS`: bit `k` is the state of key `k` (R32). -/
  keys : BitVec 16
  /-- `RND`: the random byte (R34). -/
  rnd : Byte
  deriving DecidableEq, Repr

/-- The atomic events that act on the block (R6). -/
inductive Event where
  /-- The host loop calls `cycle()` with these arguments (R120). -/
  | cycle (args : Inputs)
  /-- The 60 Hz tick (R248). -/
  | timerTick
  /-- `reset()` (R280). -/
  | reset
  /-- `loadRom(bytes)` (R282). -/
  | loadRom (bytes : List Byte)
  /-- The host has presented the framebuffer and clears the draw flag (R251). -/
  | drawAck
  deriving DecidableEq, Repr

/-- What LoadRom reports to the host that asked for it (R242, R282). -/
inductive LoadReport where
  /-- The ROM was loaded. -/
  | ok
  /-- The ROM is longer than 3584 bytes and the load was refused. -/
  | oversizeRom
  deriving DecidableEq, Repr

/-- MEM (R28): (address, byte) pairs with addresses strictly rising, none equal to what an unlisted address reads as,
which is the byte that Reset leaves there (`Config.resetByte`). -/
abbrev Memory := List Host.Cell

/-- FB (R29): 32 rows of 64 cells; the cell in column `x` and row `y` is element `x` of row `y`. -/
abbrev Framebuffer := Vector (Vector Bool 64) 32

/-- Everything the spec gives the machine (R20 to R31, R36), then the model's own four fields. -/
structure State where
  /-- V0 to VF (R20, R21). -/
  v : Vector Byte 16
  /-- The program counter (R22). -/
  pc : Word
  /-- The index register I (R23). -/
  i : Word
  /-- The return stack (R24). -/
  stack : Vector Word 16
  /-- SP, the number of stack entries in use, 0 to 16 (R25). -/
  sp : BitVec 5
  /-- The delay timer DT (R26). -/
  dt : Byte
  /-- The sound timer ST (R27). -/
  st : Byte
  /-- The draw flag DRAW (R31). -/
  draw : Bool
  /-- The memory array MEM (R28). -/
  mem : Memory
  /-- The framebuffer FB (R29). -/
  fb : Framebuffer
  /-- MODEL: the arguments that the coming Cycle gets where no queued event gives them (R6, R32 to R34). -/
  inputs : Inputs
  /-- MODEL: the events the host has queued, the next one first (R6, R7). -/
  pending : List Event
  /-- MODEL: what the last LoadRom reported to the host (R242, R282). -/
  lastLoad : Option LoadReport
  /-- MODEL: how many free arguments have been drawn, the argument of the next free inputs of `Config`. -/
  drawn : Nat
  deriving DecidableEq, Repr

/-- The faults: NONE. "The core raises no exception. No instruction, no fetch and no data access can trap, abort,
halt or signal an error" (R240); every condition that would be a fault elsewhere is absorbed (R241). -/
inductive Fault where
  deriving DecidableEq, Repr

/-- The refusals. -/
inductive Refusal where
  /-- Raised by an arm of `exec` whose instruction has no meaning in this model yet (safe: the machine stops). No arm
  raises it: every instruction has its meaning. -/
  | notModelled (mnemonic : String)
  deriving DecidableEq, Repr

/-- The state right after a Reset event, which is also the state at power-on (R38, R280, R281).
Memory lists nothing: an unlisted address reads as the byte Reset leaves there.
The keys and the random byte of the first Cycle are free values, as those of every Cycle (R5, R34, R173).
DESIGN CHOICE (log entries 2, 3, 4): the values of the model's own four fields. -/
def State.reset : State where
  v := Vector.replicate 16 0
  pc := 0x200
  i := 0
  stack := Vector.replicate 16 0
  sp := 0
  dt := 0
  st := 0
  draw := true
  mem := []
  fb := Vector.replicate 32 (Vector.replicate 64 false)
  inputs := { paused := false, keys := Config.hostKeys 0, rnd := Config.hostRnd 0 }
  pending := []
  lastLoad := none
  drawn := 1

end Sys2Proof.Machine
end

