-- ==== Sys2Proof/Machine/Ops.lean ====
section
/-!
DEFINITION. The named operations over memory, registers, stack and framebuffer that the meanings are written with
(spec R9, R60 to R70). The machine takes no exception and has no return from one (R240, R245, R246), so there is no
such operation here: each access below absorbs its own out-of-range case (R241).
-/
namespace Sys2Proof.Machine

/-! ### The memory array as a canonical list (R28) -/

/-- What an address that the list does not name reads as: the byte Reset leaves there (R28, R68). -/
def Memory.unlisted (a : Nat) : Byte := Config.resetByte a

/-- The byte at `a`, whatever `a` is: `MEM[a]` of R9. Rules use it only inside the guarded primitives below. -/
def Memory.peek (m : Memory) (a : Nat) : Byte :=
  match m with
  | [] => Memory.unlisted a
  | (k, b) :: rest => if a = k then b else Memory.peek rest a

/-- Put `b` at `a`, keeping the canonical form: the cell is dropped when `b` is what `a` reads as unlisted. -/
def Memory.poke (m : Memory) (a : Nat) (b : Byte) : Memory :=
  match m with
  | [] => if b = Memory.unlisted a then [] else [(a, b)]
  | (k, c) :: rest =>
    if a < k then
      if b = Memory.unlisted a then (k, c) :: rest else (a, b) :: (k, c) :: rest
    else if a = k then
      if b = Memory.unlisted a then rest else (a, b) :: rest
    else (k, c) :: Memory.poke rest a b

/-- The canonical form from address `lo` up: addresses rising and in memory, no cell that an unlisted address equals. -/
def Memory.wfFrom (lo : Nat) (m : Memory) : Bool :=
  match m with
  | [] => true
  | (k, b) :: rest =>
    decide (lo ≤ k) && decide (k < Config.memSize) && (b != Memory.unlisted k) && Memory.wfFrom (k + 1) rest

/-- The canonical form of memory, in which equal memories are equal lists. -/
def Memory.wf (m : Memory) : Bool := Memory.wfFrom 0 m

/-! ### The three access primitives (R62 to R64) -/

/-- `MemRead(addr, 1)`: a read above 0xFFF gives 0x00 (R62). `addr` is an unreduced natural number (R70). -/
def memRead (m : Memory) (addr : Nat) : Byte :=
  if addr ≤ 0xFFF then Memory.peek m addr else 0

/-- `MemWrite(addr, 1, b)`: a write above 0xFFF changes nothing (R63). -/
def memWrite (m : Memory) (addr : Nat) (b : Byte) : Memory :=
  if addr ≤ 0xFFF then Memory.poke m addr b else m

/-- `Fetch(addr)`: two bytes, high byte first, up to 0xFFE; the all-zero word above it (R64). -/
def memFetch (m : Memory) (addr : Nat) : Word :=
  if addr ≤ 0xFFE then Memory.peek m addr ++ Memory.peek m (addr + 1) else 0

/-- Successive bytes written in ascending order, each guarded on its own (R63, R67). -/
def memWriteBytes (m : Memory) (addr : Nat) (bs : List Byte) : Memory :=
  match bs with
  | [] => m
  | b :: rest => memWriteBytes (memWrite m addr b) (addr + 1) rest

/-- `V[k] <- MemRead(addr + k, 1)` for `k` from 0 up to `n - 1`, in ascending order (R67, R195). -/
def loadBlock (m : Memory) (addr : Nat) (n : Nat) (v : Vector Byte 16) : Vector Byte 16 :=
  match n with
  | 0 => v
  | k + 1 => (loadBlock m addr k v).setIfInBounds k (memRead m (addr + k))

/-! ### Registers (R20, R22, R23) -/

/-- `V[r]` (R9). -/
def State.getV (s : State) (r : Reg) : Byte := s.v[r]

/-- `V[r] <- b` (R9). No register is hard-wired (R20). -/
def State.setV (s : State) (r : Reg) (b : Byte) : State := { s with v := s.v.set r b }

/-- The registers V0 to VX, in ascending order (R194). -/
def State.block (s : State) (x : Reg) : List Byte := s.v.toList.take (x + 1)

/-- `NEXT`, the address after the instruction, modulo 2^16 (R10, R22). -/
def State.nextPc (s : State) : Word := s.pc + 2

/-- `SKIP`, the address after the instruction that follows, modulo 2^16 (R10). -/
def State.skipPc (s : State) : Word := s.pc + 4

/-- The default advance `PC <- NEXT` (R124). -/
def State.advance (s : State) : State := { s with pc := s.nextPc }

/-- `PC <- if c then SKIP else NEXT` (R124). It does not look at the skipped word. -/
def State.skipIf (s : State) (c : Bool) : State := { s with pc := if c then s.skipPc else s.nextPc }

/-- `PC <- target` (R9). -/
def State.jumpTo (s : State) (target : Word) : State := { s with pc := target }

/-! ### The return stack (R24, R25) -/

/-- `STACK[n]`. An entry above 15 does not exist and no run reads one (R35): the value there is free (log entry 5). -/
def State.stackEntry (s : State) (n : Nat) : Word :=
  if h : n < Config.stackDepth then s.stack[n] else Config.absentStackEntry n

/-- Push PC, the address of the CALL itself; at SP = 16 nothing is pushed and SP stays (R24, R142). -/
def State.pushPc (s : State) : State :=
  if h : s.sp.toNat < Config.stackDepth then
    { s with stack := s.stack.set s.sp.toNat s.pc h, sp := s.sp + 1 }
  else s

/-- Pop into PC and step over the CALL; at SP = 0 nothing is popped and the step still applies (R140).
The popped entry keeps its value (R24). -/
def State.popPc (s : State) : State :=
  if s.sp = 0 then s.advance
  else { s with sp := s.sp - 1, pc := s.stackEntry (s.sp - 1).toNat + 2 }

/-! ### The framebuffer (R29, R211, R212) -/

/-- The cell in column `x` and row `y` (R29). -/
def Framebuffer.cell (fb : Framebuffer) (x : Fin 64) (y : Fin 32) : Bool := fb[y][x]

/-- A column number reduced modulo 64 (R212). -/
def columnOf (n : Nat) : Fin 64 := Fin.ofNat 64 n

/-- A row number reduced modulo 32 (R212). -/
def rowOf (n : Nat) : Fin 32 := Fin.ofNat 32 n

/-- `FB[x][y] <- FB[x][y] xor 1` (R211). -/
def Framebuffer.toggle (fb : Framebuffer) (x : Fin 64) (y : Fin 32) : Framebuffer :=
  fb.set y (fb[y].set x (!fb[y][x]))

/-- All cells 0 (R210, R280). -/
def Framebuffer.blank : Framebuffer := Vector.replicate 32 (Vector.replicate 64 false)

/-- A framebuffer being drawn on, with the collision seen so far (R211). -/
structure Canvas where
  fb : Framebuffer
  hit : Bool
  deriving DecidableEq, Repr

/-- Draw one set sprite bit: the collision is a cell that was 1, and the cell is toggled (R211). -/
def Canvas.dot (c : Canvas) (x : Fin 64) (y : Fin 32) : Canvas :=
  { fb := c.fb.toggle x y, hit := c.hit || c.fb.cell x y }

/-- The columns 0 to `n - 1` of one sprite row `b` placed at column `x0` of screen row `y`: bit 7 is the leftmost pixel
and every column is reduced modulo 64 (R211, R212). A 0 bit leaves its cell alone. -/
def Canvas.rowUpTo (b : Byte) (x0 : Nat) (y : Fin 32) (n : Nat) (c : Canvas) : Canvas :=
  match n with
  | 0 => c
  | k + 1 =>
    let c' := Canvas.rowUpTo b x0 y k c
    if b.getLsbD (7 - k) then c'.dot (columnOf (x0 + k)) y else c'

/-- The rows 0 to `n - 1` of the sprite at memory address `a`, placed at `(x0, y0)`, every row reduced modulo 32; a
sprite byte outside memory is an empty row (R62, R211, R212). -/
def Canvas.rowsUpTo (m : Memory) (a x0 y0 : Nat) (n : Nat) (c : Canvas) : Canvas :=
  match n with
  | 0 => c
  | r + 1 =>
    Canvas.rowUpTo (memRead m (a + r)) x0 (rowOf (y0 + r)) 8 (Canvas.rowsUpTo m a x0 y0 r c)

end Sys2Proof.Machine
end

