-- ==== Sys2Proof/Machine/Operands.lean ====
section
/-!
DEFINITION. The operand forms: immediates, the one addressing mode, the keypad query and the inputs of the Cycle
(spec R93, R196, R220, R34).
-/
namespace Sys2Proof.Machine

/-- NNN widened to an address with zeros (R93). -/
def addrOf (nnn : Addr12) : Word := nnn.zeroExtend 16

/-- A byte widened to 16 bits with zeros: every widening is a zero extension (R9, R93). -/
def byteToWord (b : Byte) : Word := b.zeroExtend 16

/-- The effective address `I + k`, a natural number that is not reduced (R70, R196). -/
def State.effAddr (s : State) (k : Nat) : Nat := s.i.toNat + k

/-- The address of the font glyph numbered `b`: five bytes a glyph, no reduction of `b` (R30, R192). -/
def glyphAddr (b : Byte) : Word := byteToWord b * 5

/-- The three decimal digits of a byte: hundreds, tens, ones, one binary number a byte (R193). -/
def decimalDigits (b : Byte) : List Byte :=
  [BitVec.ofNat 8 (b.toNat / 100), BitVec.ofNat 8 (b.toNat / 10 % 10), BitVec.ofNat 8 (b.toNat % 10)]

/-- `Key(k)`: the state of key `k` in this Cycle's `KEYS`; a number above 15 reads as not pressed (R220). -/
def State.key (s : State) (k : Byte) : Bool := decide (k.toNat ≤ 15) && s.inputs.keys.getLsbD k.toNat

/-- The least-numbered key that is down, if one is (R223). -/
def State.leastKey (s : State) : Option Nat := (List.range 16).find? fun k => s.inputs.keys.getLsbD k

/-- `RND`, the random byte of this Cycle (R34, R253). -/
def State.randomByte (s : State) : Byte := s.inputs.rnd

end Sys2Proof.Machine
end

