-- ==== Sys2Proof/Machine/Flags.lean ====
section
/-!
DEFINITION. The flag computations. VF is the one flag, written with 1 or 0 after the result (spec R21, R161).
-/
namespace Sys2Proof.Machine

/-- A flag value as the byte that VF is written with (R21). -/
def flagByte (c : Bool) : Byte := if c then 1 else 0

/-- `VF <- c` (R21). -/
def State.setVF (s : State) (c : Bool) : State := s.setV vF (flagByte c)

/-- The result to VX first, then the flag to VF, so that with X = F the flag is what VF holds (R161). -/
def State.setVFlag (s : State) (x : Reg) (b : Byte) (c : Bool) : State := (s.setV x b).setVF c

/-- Carry out of an 8-bit sum: 1 if it is above 255 (R168). -/
def carryOut (a b : Byte) : Bool := decide (255 < a.toNat + b.toNat)

/-- No borrow in `a - b`: 1 if `a >= b` (R160, R169, R171). -/
def noBorrow (a b : Byte) : Bool := decide (b.toNat ≤ a.toNat)

/-- The bit that a right shift by one shifts out, bit 0 (R170). -/
def shiftOutLow (a : Byte) : Bool := a.getLsbD 0

/-- The bit that a left shift by one shifts out, bit 7 (R172). -/
def shiftOutHigh (a : Byte) : Bool := a.getLsbD 7

/-- Carry out of the 16-bit sum `I + VX`: 1 if it is above 0xFFFF (R191). -/
def indexCarry (i : Word) (b : Byte) : Bool := decide (0xFFFF < i.toNat + b.toNat)

end Sys2Proof.Machine
end

