-- ==== Sys2Proof/Machine/Flow.lean ====
section
/-!
DEFINITION. NOP (spec R125) and the control-transfer instructions (R140 to R148). Every meaning answers a next state
(R240); the instructions that are no jump, call, return or skip end in the default advance (R124).
-/
namespace Sys2Proof.Machine

/-- What a meaning answers. -/
abbrev Result := Host.Outcome State Fault Refusal

/-- NOP: nothing changes but PC, whatever the reserved word is (R125). -/
def execNop (_w : Word) (s : State) : Result := .next s.advance

/-- `00EE` RET (R140). -/
def execRet (s : State) : Result := .next s.popPc

/-- `1NNN` JP addr (R141). -/
def execJp (nnn : Addr12) (s : State) : Result := .next (s.jumpTo (addrOf nnn))

/-- `2NNN` CALL addr: the jump is taken whether or not there was room to push (R142). -/
def execCall (nnn : Addr12) (s : State) : Result := .next (s.pushPc.jumpTo (addrOf nnn))

/-- `3XKK` SE Vx, byte (R143). -/
def execSeImm (x : Reg) (kk : Byte) (s : State) : Result := .next (s.skipIf (s.getV x == kk))

/-- `4XKK` SNE Vx, byte (R144). -/
def execSneImm (x : Reg) (kk : Byte) (s : State) : Result := .next (s.skipIf (s.getV x != kk))

/-- `5XY0` SE Vx, Vy (R145). -/
def execSeReg (x y : Reg) (s : State) : Result := .next (s.skipIf (s.getV x == s.getV y))

/-- `9XY0` SNE Vx, Vy (R146). -/
def execSneReg (x y : Reg) (s : State) : Result := .next (s.skipIf (s.getV x != s.getV y))

/-- `BNNN` JP V0, addr: the whole of V0 plus the whole of NNN, not reduced to 12 bits (R93, R147). -/
def execJpV0 (nnn : Addr12) (s : State) : Result :=
  .next (s.jumpTo (byteToWord (s.getV v0) + addrOf nnn))

end Sys2Proof.Machine
end

