-- ==== Sys2Proof/Machine/Alu.lean ====
section
/-!
DEFINITION. Register load, arithmetic, logic, shift and random (spec R160 to R173). Operands are read before anything
is written (R161); every meaning ends in the default advance (R124).
-/
namespace Sys2Proof.Machine

/-- `6XKK` LD Vx, byte (R162). -/
def execLdImm (x : Reg) (kk : Byte) (s : State) : Result := .next (s.setV x kk).advance

/-- `7XKK` ADD Vx, byte: wraps, no flag (R163). -/
def execAddImm (x : Reg) (kk : Byte) (s : State) : Result := .next (s.setV x (s.getV x + kk)).advance

/-- `8XY0` LD Vx, Vy (R164). -/
def execLdReg (x y : Reg) (s : State) : Result := .next (s.setV x (s.getV y)).advance

/-- `8XY1` OR Vx, Vy: VF is not written (R165). -/
def execOrReg (x y : Reg) (s : State) : Result := .next (s.setV x (s.getV x ||| s.getV y)).advance

/-- `8XY2` AND Vx, Vy: VF is not written (R166). -/
def execAndReg (x y : Reg) (s : State) : Result := .next (s.setV x (s.getV x &&& s.getV y)).advance

/-- `8XY3` XOR Vx, Vy: VF is not written (R167). -/
def execXorReg (x y : Reg) (s : State) : Result := .next (s.setV x (s.getV x ^^^ s.getV y)).advance

/-- `8XY4` ADD Vx, Vy: VF is the carry (R168). -/
def execAddReg (x y : Reg) (s : State) : Result :=
  .next (s.setVFlag x (s.getV x + s.getV y) (carryOut (s.getV x) (s.getV y))).advance

/-- `8XY5` SUB Vx, Vy: VF is 1 when there is no borrow (R169). -/
def execSubReg (x y : Reg) (s : State) : Result :=
  .next (s.setVFlag x (s.getV x - s.getV y) (noBorrow (s.getV x) (s.getV y))).advance

/-- `8XY6` SHR Vx: VX in place, VY neither read nor written, VF is the old bit 0 (R170). -/
def execShr (x _y : Reg) (s : State) : Result :=
  .next (s.setVFlag x (s.getV x >>> 1) (shiftOutLow (s.getV x))).advance

/-- `8XY7` SUBN Vx, Vy: VF is 1 when there is no borrow in VY - VX (R171). -/
def execSubn (x y : Reg) (s : State) : Result :=
  .next (s.setVFlag x (s.getV y - s.getV x) (noBorrow (s.getV y) (s.getV x))).advance

/-- `8XYE` SHL Vx: VX in place, VY neither read nor written, VF is the old bit 7 (R172). -/
def execShl (x _y : Reg) (s : State) : Result :=
  .next (s.setVFlag x (s.getV x <<< 1) (shiftOutHigh (s.getV x))).advance

/-- `CXKK` RND Vx, byte: the random byte of this Cycle, masked (R173). -/
def execRnd (x : Reg) (kk : Byte) (s : State) : Result := .next (s.setV x (s.randomByte &&& kk)).advance

end Sys2Proof.Machine
end

