-- ==== Sys2Proof/Machine/Display.lean ====
section
/-!
DEFINITION. The two instructions that change the framebuffer; both raise the draw flag every time (spec R210 to R213).
-/
namespace Sys2Proof.Machine

/-- `00E0` CLS (R210). -/
def execCls (s : State) : Result := .next { s with fb := Framebuffer.blank, draw := true }.advance

/-- What `DXYN` draws: the sprite at I placed at (VX, VY), both read before VF is written, with no collision yet (R211). -/
def State.sprite (s : State) (x y : Reg) (n : Nibble) : Canvas :=
  Canvas.rowsUpTo s.mem (s.effAddr 0) (s.getV x).toNat (s.getV y).toNat n.toNat { fb := s.fb, hit := false }

/-- `DXYN` DRW Vx, Vy, nibble: VF is always written, 1 if a cell went from 1 to 0 (R211, R213). -/
def execDrw (x y : Reg) (n : Nibble) (s : State) : Result :=
  .next ({ s with fb := (s.sprite x y n).fb, draw := true }.setVF (s.sprite x y n).hit).advance

end Sys2Proof.Machine
end

