-- ==== Sys2Proof/Machine/IndexMemory.lean ====
section
/-!
DEFINITION. The index register and the instructions that move bytes between the V registers and memory at I
(spec R190 to R196). No access changes I (R196).
-/
namespace Sys2Proof.Machine

/-- `ANNN` LD I, addr (R190). -/
def execLdI (nnn : Addr12) (s : State) : Result := .next { s with i := addrOf nnn }.advance

/-- `FX1E` ADD I, Vx: I wraps modulo 2^16 and VF is the carry out of 16 bits, always written (R191). -/
def execAddI (x : Reg) (s : State) : Result :=
  .next ({ s with i := s.i + byteToWord (s.getV x) }.setVF (indexCarry s.i (s.getV x))).advance

/-- `FX29` LD F, Vx: the whole of VX times 5 (R192). -/
def execLdFont (x : Reg) (s : State) : Result := .next { s with i := glyphAddr (s.getV x) }.advance

/-- `FX33` LD B, Vx: hundreds, tens and ones at I, I+1, I+2, each guarded on its own (R193). -/
def execLdBcd (x : Reg) (s : State) : Result :=
  .next { s with mem := memWriteBytes s.mem (s.effAddr 0) (decimalDigits (s.getV x)) }.advance

/-- `FX55` LD [I], Vx: V0 to VX to I up to I+X, each guarded on its own (R194). -/
def execStoreRegs (x : Reg) (s : State) : Result :=
  .next { s with mem := memWriteBytes s.mem (s.effAddr 0) (s.block x) }.advance

/-- `FX65` LD Vx, [I]: V0 to VX from I up to I+X; a byte outside memory reads as 0 and is written (R195). -/
def execLoadRegs (x : Reg) (s : State) : Result :=
  .next { s with v := loadBlock s.mem (s.effAddr 0) (x + 1) s.v }.advance

end Sys2Proof.Machine
end

