-- ==== Sys2Proof/Machine/KeypadTimers.lean ====
section
/-!
DEFINITION. The keypad instructions, over this Cycle's `KEYS`, and the timer instructions (spec R220 to R226).
-/
namespace Sys2Proof.Machine

/-- `EX9E` SKP Vx: the key numbered by the value of VX (R221). -/
def execSkp (x : Reg) (s : State) : Result := .next (s.skipIf (s.key (s.getV x)))

/-- `EXA1` SKNP Vx (R222). -/
def execSknp (x : Reg) (s : State) : Result := .next (s.skipIf (!s.key (s.getV x)))

/-- `FX0A` LD Vx, K: one phase; with no key down nothing at all changes, and PC stays on this instruction (R223). -/
def execLdVxKey (x : Reg) (s : State) : Result :=
  .next (match s.leastKey with
    | some k => (s.setV x (BitVec.ofNat 8 k)).advance
    | none => s)

/-- `FX07` LD Vx, DT (R224). -/
def execLdVxDt (x : Reg) (s : State) : Result := .next (s.setV x s.dt).advance

/-- `FX15` LD DT, Vx (R225). -/
def execLdDtVx (x : Reg) (s : State) : Result := .next { s with dt := s.getV x }.advance

/-- `FX18` LD ST, Vx (R226). -/
def execLdStVx (x : Reg) (s : State) : Result := .next { s with st := s.getV x }.advance

end Sys2Proof.Machine
end

