-- ==== Sys2Proof/Syntax.lean ====
section
/-!
DEFINITION. The instructions: one constructor for each of the 34 rows of spec R95, in the order of R95's table, and
one for NOP, which is what every reserved word executes as (R96, R123: "one constructor per row of
30_encoding.md rule R95 plus one for NOP").
-/
namespace Sys2Proof

/-- An instruction with its operands, named after the fields X, Y, N, KK, NNN of spec R91. -/
inductive Instr where
  /-- `00E0` CLS (R210). -/
  | cls
  /-- `00EE` RET (R140). -/
  | ret
  /-- `1NNN` JP addr (R141). -/
  | jp (nnn : Addr12)
  /-- `2NNN` CALL addr (R142). -/
  | call (nnn : Addr12)
  /-- `3XKK` SE Vx, byte (R143). -/
  | seImm (x : Reg) (kk : Byte)
  /-- `4XKK` SNE Vx, byte (R144). -/
  | sneImm (x : Reg) (kk : Byte)
  /-- `5XY0` SE Vx, Vy (R145). -/
  | seReg (x y : Reg)
  /-- `9XY0` SNE Vx, Vy (R146). -/
  | sneReg (x y : Reg)
  /-- `6XKK` LD Vx, byte (R162). -/
  | ldImm (x : Reg) (kk : Byte)
  /-- `7XKK` ADD Vx, byte (R163). -/
  | addImm (x : Reg) (kk : Byte)
  /-- `8XY0` LD Vx, Vy (R164). -/
  | ldReg (x y : Reg)
  /-- `8XY1` OR Vx, Vy (R165). -/
  | orReg (x y : Reg)
  /-- `8XY2` AND Vx, Vy (R166). -/
  | andReg (x y : Reg)
  /-- `8XY3` XOR Vx, Vy (R167). -/
  | xorReg (x y : Reg)
  /-- `8XY4` ADD Vx, Vy (R168). -/
  | addReg (x y : Reg)
  /-- `8XY5` SUB Vx, Vy (R169). -/
  | subReg (x y : Reg)
  /-- `8XY6` SHR Vx (R170). The field Y is part of the word and is no operand. -/
  | shr (x y : Reg)
  /-- `8XY7` SUBN Vx, Vy (R171). -/
  | subn (x y : Reg)
  /-- `8XYE` SHL Vx (R172). The field Y is part of the word and is no operand. -/
  | shl (x y : Reg)
  /-- `ANNN` LD I, addr (R190). -/
  | ldI (nnn : Addr12)
  /-- `BNNN` JP V0, addr (R147). -/
  | jpV0 (nnn : Addr12)
  /-- `CXKK` RND Vx, byte (R173). -/
  | rnd (x : Reg) (kk : Byte)
  /-- `DXYN` DRW Vx, Vy, nibble (R211). -/
  | drw (x y : Reg) (n : Nibble)
  /-- `EX9E` SKP Vx (R221). -/
  | skp (x : Reg)
  /-- `EXA1` SKNP Vx (R222). -/
  | sknp (x : Reg)
  /-- `FX07` LD Vx, DT (R224). -/
  | ldVxDt (x : Reg)
  /-- `FX15` LD DT, Vx (R225). -/
  | ldDtVx (x : Reg)
  /-- `FX18` LD ST, Vx (R226). -/
  | ldStVx (x : Reg)
  /-- `FX0A` LD Vx, K (R223). -/
  | ldVxKey (x : Reg)
  /-- `FX1E` ADD I, Vx (R191). -/
  | addI (x : Reg)
  /-- `FX29` LD F, Vx (R192). -/
  | ldFont (x : Reg)
  /-- `FX33` LD B, Vx (R193). -/
  | ldBcd (x : Reg)
  /-- `FX55` LD [I], Vx (R194). -/
  | storeRegs (x : Reg)
  /-- `FX65` LD Vx, [I] (R195). -/
  | loadRegs (x : Reg)
  /-- NOP: the reserved word `w` (R125, R96). The word is kept so that an encoding loses no bit. -/
  | nop (w : Word)
  deriving DecidableEq, Repr

end Sys2Proof
end

