-- ==== Sys2Proof/Decode.lean ====
section
/-!
DEFINITION. The decoder, written from the dispatch table of spec R94 (total: spec R101), the byte-level decoder and
the encoder, and the opcode map of R95 as data. An instruction word is two bytes, high byte first (R64, R90).
-/
namespace Sys2Proof

/-! ### The fields of a word (R91) -/

/-- The opcode class, bits 15 to 12 (R91). -/
def classOf (w : Word) : Nibble := w.extractLsb' 12 4

/-- The field X, bits 11 to 8, as a register number (R91). -/
def fieldX (w : Word) : Reg := (w.extractLsb' 8 4).toFin

/-- The field Y, bits 7 to 4, as a register number (R91). -/
def fieldY (w : Word) : Reg := (w.extractLsb' 4 4).toFin

/-- The field N, bits 3 to 0 (R91). -/
def fieldN (w : Word) : Nibble := w.extractLsb' 0 4

/-- The field KK, bits 7 to 0 (R91). -/
def fieldKK (w : Word) : Byte := w.extractLsb' 0 8

/-- The field NNN, bits 11 to 0 (R91). -/
def fieldNNN (w : Word) : Addr12 := w.extractLsb' 0 12

/-! ### Dispatch (R94) -/

/-- Class 0: the whole word is compared (R94). -/
def decode0 (w : Word) : Instr :=
  if w = 0x00E0 then .cls else if w = 0x00EE then .ret else .nop w

/-- Class 5 needs N = 0 (R94). -/
def decode5 (w : Word) : Instr :=
  if fieldN w = 0 then .seReg (fieldX w) (fieldY w) else .nop w

/-- Class 8: secondary dispatch on N (R94). -/
def decode8 (w : Word) : Instr :=
  match (fieldN w).toNat with
  | 0x0 => .ldReg (fieldX w) (fieldY w)
  | 0x1 => .orReg (fieldX w) (fieldY w)
  | 0x2 => .andReg (fieldX w) (fieldY w)
  | 0x3 => .xorReg (fieldX w) (fieldY w)
  | 0x4 => .addReg (fieldX w) (fieldY w)
  | 0x5 => .subReg (fieldX w) (fieldY w)
  | 0x6 => .shr (fieldX w) (fieldY w)
  | 0x7 => .subn (fieldX w) (fieldY w)
  | 0xE => .shl (fieldX w) (fieldY w)
  | _ => .nop w

/-- Class 9 needs N = 0 (R94). -/
def decode9 (w : Word) : Instr :=
  if fieldN w = 0 then .sneReg (fieldX w) (fieldY w) else .nop w

/-- Class E: secondary dispatch on KK (R94). -/
def decodeE (w : Word) : Instr :=
  if fieldKK w = 0x9E then .skp (fieldX w)
  else if fieldKK w = 0xA1 then .sknp (fieldX w)
  else .nop w

/-- Class F: secondary dispatch on KK (R94). -/
def decodeF (w : Word) : Instr :=
  if fieldKK w = 0x07 then .ldVxDt (fieldX w)
  else if fieldKK w = 0x0A then .ldVxKey (fieldX w)
  else if fieldKK w = 0x15 then .ldDtVx (fieldX w)
  else if fieldKK w = 0x18 then .ldStVx (fieldX w)
  else if fieldKK w = 0x1E then .addI (fieldX w)
  else if fieldKK w = 0x29 then .ldFont (fieldX w)
  else if fieldKK w = 0x33 then .ldBcd (fieldX w)
  else if fieldKK w = 0x55 then .storeRegs (fieldX w)
  else if fieldKK w = 0x65 then .loadRegs (fieldX w)
  else .nop w

/-- The decoder: every word decodes, and to one instruction (R94, R101). It looks at the word alone. -/
def decode (w : Word) : Instr :=
  match (classOf w).toNat with
  | 0x0 => decode0 w
  | 0x1 => .jp (fieldNNN w)
  | 0x2 => .call (fieldNNN w)
  | 0x3 => .seImm (fieldX w) (fieldKK w)
  | 0x4 => .sneImm (fieldX w) (fieldKK w)
  | 0x5 => decode5 w
  | 0x6 => .ldImm (fieldX w) (fieldKK w)
  | 0x7 => .addImm (fieldX w) (fieldKK w)
  | 0x8 => decode8 w
  | 0x9 => decode9 w
  | 0xA => .ldI (fieldNNN w)
  | 0xB => .jpV0 (fieldNNN w)
  | 0xC => .rnd (fieldX w) (fieldKK w)
  | 0xD => .drw (fieldX w) (fieldY w) (fieldN w)
  | 0xE => decodeE w
  | _ => decodeF w

/-! ### Bytes -/

/-- Why a list of bytes is no instruction. -/
inductive DecodeError where
  /-- Fewer than the two bytes of an instruction (R90). No word is refused (R96), so this is the one reason. -/
  | truncated
  deriving DecidableEq, Repr

/-- The word of two bytes, the byte at the lower address in bits 15 to 8 (R64, R65). -/
def wordOfBytes (hi lo : Byte) : Word := hi ++ lo

/-- The instruction at the head of a list of bytes, and the bytes after it (R90). -/
def decodeBytes (bs : List Byte) : Except DecodeError (Instr × List Byte) :=
  match bs with
  | hi :: lo :: rest => .ok (decode (wordOfBytes hi lo), rest)
  | _ => .error .truncated

/-- The high byte of a word, stored at the lower address (R65). -/
def highByte (w : Word) : Byte := w.extractLsb' 8 8

/-- The low byte of a word, stored at the higher address (R65). -/
def lowByte (w : Word) : Byte := w.extractLsb' 0 8

/-- What the decoder reads from an instruction numbered as `spec/opcode_table.json` numbers it: each row is one
16-bit word, laid out high byte first (R64, R95). -/
def decodeTableWord (nbits w : Nat) : Option Instr :=
  let word : Word := BitVec.ofNat 16 (w % 2 ^ nbits)
  match decodeBytes [highByte word, lowByte word] with
  | .ok (i, _) => some i
  | .error _ => none

/-! ### The encoder (R92, R95) -/

/-- Format NNN: class and a 12-bit address (R92). -/
def wordNNN (c : Nibble) (nnn : Addr12) : Word := c ++ nnn

/-- Format XKK: class, register and an 8-bit immediate (R92). -/
def wordXKK (c : Nibble) (x : Reg) (kk : Byte) : Word := c ++ (BitVec.ofFin x : Nibble) ++ kk

/-- Formats XY and XYN: class, two registers and a nibble (R92). -/
def wordXYN (c : Nibble) (x y : Reg) (n : Nibble) : Word :=
  c ++ (BitVec.ofFin x : Nibble) ++ (BitVec.ofFin y : Nibble) ++ n

/-- The word of an instruction (R92, R95). -/
def encode (i : Instr) : Word :=
  match i with
  | .cls => 0x00E0
  | .ret => 0x00EE
  | .jp nnn => wordNNN 0x1 nnn
  | .call nnn => wordNNN 0x2 nnn
  | .seImm x kk => wordXKK 0x3 x kk
  | .sneImm x kk => wordXKK 0x4 x kk
  | .seReg x y => wordXYN 0x5 x y 0x0
  | .sneReg x y => wordXYN 0x9 x y 0x0
  | .ldImm x kk => wordXKK 0x6 x kk
  | .addImm x kk => wordXKK 0x7 x kk
  | .ldReg x y => wordXYN 0x8 x y 0x0
  | .orReg x y => wordXYN 0x8 x y 0x1
  | .andReg x y => wordXYN 0x8 x y 0x2
  | .xorReg x y => wordXYN 0x8 x y 0x3
  | .addReg x y => wordXYN 0x8 x y 0x4
  | .subReg x y => wordXYN 0x8 x y 0x5
  | .shr x y => wordXYN 0x8 x y 0x6
  | .subn x y => wordXYN 0x8 x y 0x7
  | .shl x y => wordXYN 0x8 x y 0xE
  | .ldI nnn => wordNNN 0xA nnn
  | .jpV0 nnn => wordNNN 0xB nnn
  | .rnd x kk => wordXKK 0xC x kk
  | .drw x y n => wordXYN 0xD x y n
  | .skp x => wordXKK 0xE x 0x9E
  | .sknp x => wordXKK 0xE x 0xA1
  | .ldVxDt x => wordXKK 0xF x 0x07
  | .ldDtVx x => wordXKK 0xF x 0x15
  | .ldStVx x => wordXKK 0xF x 0x18
  | .ldVxKey x => wordXKK 0xF x 0x0A
  | .addI x => wordXKK 0xF x 0x1E
  | .ldFont x => wordXKK 0xF x 0x29
  | .ldBcd x => wordXKK 0xF x 0x33
  | .storeRegs x => wordXKK 0xF x 0x55
  | .loadRegs x => wordXKK 0xF x 0x65
  | .nop w => w

/-- The two bytes of an instruction as memory holds them (R64). -/
def encodeBytes (i : Instr) : List Byte := [highByte (encode i), lowByte (encode i)]

/-! ### The opcode map as data (R95) -/

/-- One row of the opcode map: a word selects it when `w &&& mask = value` (R95). -/
structure OpcodeRow where
  number : Nat
  value : Word
  mask : Word
  deriving DecidableEq, Repr

/-- The word selects the row (R95). -/
def OpcodeRow.selects (r : OpcodeRow) (w : Word) : Bool := w &&& r.mask == r.value

/-- The 34 rows of R95, in its order, with its row numbers. -/
def opcodeRows : List OpcodeRow :=
  [⟨1, 0x00E0, 0xFFFF⟩, ⟨2, 0x00EE, 0xFFFF⟩, ⟨3, 0x1000, 0xF000⟩, ⟨4, 0x2000, 0xF000⟩,
   ⟨5, 0x3000, 0xF000⟩, ⟨6, 0x4000, 0xF000⟩, ⟨7, 0x5000, 0xF00F⟩, ⟨8, 0x9000, 0xF00F⟩] ++
  [⟨9, 0x6000, 0xF000⟩, ⟨10, 0x7000, 0xF000⟩, ⟨11, 0x8000, 0xF00F⟩, ⟨12, 0x8001, 0xF00F⟩,
   ⟨13, 0x8002, 0xF00F⟩, ⟨14, 0x8003, 0xF00F⟩, ⟨15, 0x8004, 0xF00F⟩, ⟨16, 0x8005, 0xF00F⟩] ++
  [⟨17, 0x8006, 0xF00F⟩, ⟨18, 0x8007, 0xF00F⟩, ⟨19, 0x800E, 0xF00F⟩, ⟨20, 0xA000, 0xF000⟩,
   ⟨21, 0xB000, 0xF000⟩, ⟨22, 0xC000, 0xF000⟩, ⟨23, 0xD000, 0xF000⟩, ⟨24, 0xE09E, 0xF0FF⟩] ++
  [⟨25, 0xE0A1, 0xF0FF⟩, ⟨26, 0xF007, 0xF0FF⟩, ⟨27, 0xF015, 0xF0FF⟩, ⟨28, 0xF018, 0xF0FF⟩,
   ⟨29, 0xF00A, 0xF0FF⟩, ⟨30, 0xF01E, 0xF0FF⟩, ⟨31, 0xF029, 0xF0FF⟩, ⟨32, 0xF033, 0xF0FF⟩,
   ⟨33, 0xF055, 0xF0FF⟩, ⟨34, 0xF065, 0xF0FF⟩]

/-- The number of the row of R95 that an instruction comes from; 0 for NOP, which has no row there. -/
def Instr.rowNumber (i : Instr) : Nat :=
  match i with
  | .cls => 1
  | .ret => 2
  | .jp _ => 3
  | .call _ => 4
  | .seImm _ _ => 5
  | .sneImm _ _ => 6
  | .seReg _ _ => 7
  | .sneReg _ _ => 8
  | .ldImm _ _ => 9
  | .addImm _ _ => 10
  | .ldReg _ _ => 11
  | .orReg _ _ => 12
  | .andReg _ _ => 13
  | .xorReg _ _ => 14
  | .addReg _ _ => 15
  | .subReg _ _ => 16
  | .shr _ _ => 17
  | .subn _ _ => 18
  | .shl _ _ => 19
  | .ldI _ => 20
  | .jpV0 _ => 21
  | .rnd _ _ => 22
  | .drw _ _ _ => 23
  | .skp _ => 24
  | .sknp _ => 25
  | .ldVxDt _ => 26
  | .ldDtVx _ => 27
  | .ldStVx _ => 28
  | .ldVxKey _ => 29
  | .addI _ => 30
  | .ldFont _ => 31
  | .ldBcd _ => 32
  | .storeRegs _ => 33
  | .loadRegs _ => 34
  | .nop _ => 0

end Sys2Proof
end

