-- ==== Sys2Proof/Machine/Events.lean ====
section
/-!
DEFINITION. The fetch of a Cycle (spec R122) and the events other than Cycle: TimerTick, Reset, LoadRom, DrawAck
(R248, R251, R280, R282), with the model's bookkeeping of the host's inputs (log entries 2, 3, 4).
-/
namespace Sys2Proof.Machine

/-- `W = Fetch(PC)` (R122). -/
def State.fetchWord (s : State) : Word := memFetch s.mem s.pc.toNat

/-- The instruction at PC (R123). -/
def State.fetched (s : State) : Instr := decode s.fetchWord

/-- A timer's countdown: floor at 0, never below (R248). -/
def tickDown (b : Byte) : Byte := if b = 0 then 0 else b - 1

/-- TimerTick: both timers count down; `paused` is not looked at (R248). -/
def State.timerTick (s : State) : State := { s with dt := tickDown s.dt, st := tickDown s.st }

/-- DrawAck: the draw flag is cleared and nothing else changes (R251). -/
def State.drawAck (s : State) : State := { s with draw := false }

/-- Reset: every element of the block takes its reset value, whatever it held (R280). The model's own fields, which are
the host's and not the block's, stay (log entry 2). -/
def State.resetEvent (s : State) : State :=
  { State.reset with inputs := s.inputs, pending := s.pending, lastLoad := s.lastLoad, drawn := s.drawn }

/-- LoadRom: a ROM over 3584 bytes is refused and the state is unchanged; otherwise Reset, then the bytes from 0x200 up
(R282). The second component is what the host is told (R242). -/
def State.loadRom (s : State) (bytes : List Byte) : State × LoadReport :=
  if Config.maxRom < bytes.length then (s, .oversizeRom)
  else
    ({ s.resetEvent with mem := memWriteBytes s.resetEvent.mem Config.progBase bytes }, .ok)

/-- LoadRom with its report kept where the host reads it. -/
def State.loadRomEvent (s : State) (bytes : List Byte) : State :=
  { (s.loadRom bytes).1 with lastLoad := some (s.loadRom bytes).2 }

/-- The arguments of the next Cycle, where no queued event gives them: `paused` as the host holds it, `KEYS` and `RND`
free (R5, R7; log entry 3). -/
def State.freshInputs (s : State) : State :=
  { s with
    inputs := { paused := s.inputs.paused, keys := Config.hostKeys s.drawn, rnd := Config.hostRnd s.drawn }
    drawn := s.drawn + 1 }

/-- Go on from a next state. -/
def onNext (f : State → State) (r : Result) : Result :=
  match r with
  | .next s => .next (f s)
  | .fault e => .fault e
  | .refused e => .refused e

/-- The word `w` where the next fetch finds it: at PC, or at 0x200 with PC moved there when no word fits at PC (R64). -/
def State.placeWord (s : State) (w : Word) : State :=
  let at' := if s.pc.toNat ≤ 0xFFE then s.pc else 0x200
  { s with pc := at', mem := memWriteBytes s.mem at'.toNat [highByte w, lowByte w] }

/-- The word `w`, numbered as the opcode table numbers it, placed so that the very next step runs it: nothing queued, not
paused, the two bytes at PC (log entry 21). -/
def State.placeTableWord (s : State) (nbits w : Nat) : State :=
  { s with pending := [], inputs := { s.inputs with paused := false } }.placeWord (BitVec.ofNat 16 (w % 2 ^ nbits))

end Sys2Proof.Machine
end

