-- ==== Sys2Proof/Machine/Cycle.lean ====
section
/-!
DEFINITION. The Cycle event (spec R120, R121), and which event comes next: the host's queue says so, and with nothing
queued the host loop calls `cycle()` (R6, R7; log entry 2).
-/
namespace Sys2Proof.Machine

/-- `Cycle` of R120, over the arguments in `inputs`: paused does nothing, otherwise fetch, decode, execute. -/
def cycle (s : State) : Host.Outcome State Fault Refusal :=
  if s.inputs.paused then .next s else exec s.fetched s

/-- A Cycle, after which its arguments are used up. -/
def cycleEvent (s : State) : Host.Outcome State Fault Refusal := onNext State.freshInputs (cycle s)

/-- One event (R6). -/
def runEvent (e : Event) (s : State) : Host.Outcome State Fault Refusal :=
  match e with
  | .cycle args => cycleEvent { s with inputs := args }
  | .timerTick => .next s.timerTick
  | .reset => .next s.resetEvent
  | .loadRom bytes => .next (s.loadRomEvent bytes)
  | .drawAck => .next s.drawAck

/-- The next queued event, or a Cycle where none is queued. -/
def runNext (s : State) : Host.Outcome State Fault Refusal :=
  match s.pending with
  | [] => cycleEvent s
  | e :: rest => runEvent e { s with pending := rest }

end Sys2Proof.Machine
end

