-- ==== Sys2Proof/Machine/Step.lean ====
section
/-! DEFINITION. The step: one event of spec R6. -/
namespace Sys2Proof.Machine

/-- One step of the machine: the next event (R6, R7). -/
def step (s : State) : Host.Outcome State Fault Refusal := runNext s

/-- The state with the instruction word `w` (numbered as the opcode table numbers it) where the next step fetches and
runs it (log entry 21). -/
def State.withFetchWord (s : State) (nbits w : Nat) : State := s.placeTableWord nbits w

end Sys2Proof.Machine
end

