-- ==== Sys2Proof/Safety.lean ====
section
/-!
DEFINITION. The terms that claims are stated in: the pieces of the state and "nothing else changes", the advance of PC,
the pixels of a sprite, and the invariant of the machine (spec R35, R67, R212).
-/
namespace Sys2Proof.Machine

/-- One observable piece of the state, a memory byte, a framebuffer cell or a stack entry being one piece each.
The last four are the model's own fields. -/
inductive Piece where
  | v (r : Reg)
  | pc
  | i
  | stack (k : Fin 16)
  | sp
  | dt
  | st
  | draw
  | mem (a : Nat)
  | cell (x : Fin 64) (y : Fin 32)
  | inputs
  | pending
  | lastLoad
  | drawn
  deriving DecidableEq, Repr

/-- The piece reads the same in both states; memory through the guarded read of one byte (R62). -/
def Piece.same (p : Piece) (s t : State) : Prop :=
  match p with
  | .v r => t.getV r = s.getV r
  | .pc => t.pc = s.pc
  | .i => t.i = s.i
  | .stack k => t.stack[k] = s.stack[k]
  | .sp => t.sp = s.sp
  | .dt => t.dt = s.dt
  | .st => t.st = s.st
  | .draw => t.draw = s.draw
  | .mem a => memRead t.mem a = memRead s.mem a
  | .cell x y => Framebuffer.cell t.fb x y = Framebuffer.cell s.fb x y
  | .inputs => t.inputs = s.inputs
  | .pending => t.pending = s.pending
  | .lastLoad => t.lastLoad = s.lastLoad
  | .drawn => t.drawn = s.drawn

/-- Every piece of the state but those named reads in `t` as it does in `s`: every other register, every other byte of
memory, every other framebuffer cell, every other stack entry and every other control element. -/
def ChangesOnly (ps : List Piece) (s t : State) : Prop := ∀ p, p ∉ ps → p.same s t

/-- The registers V0 to VX as pieces (R195). -/
def regPieces (x : Reg) : List Piece := ((List.finRange 16).filter fun r => decide (r ≤ x)).map Piece.v

/-- The bytes at `a`, `a + 1`, up to `a + n - 1` as pieces: what an instruction that stores `n` bytes at `a` may change. -/
def bytePieces (a n : Nat) : List Piece := (List.range n).map fun k => Piece.mem (a + k)

/-- All cells of the framebuffer as pieces. -/
def cellPieces : List Piece :=
  (List.finRange 32).flatMap fun y => (List.finRange 64).map fun x => Piece.cell x y

/-- PC has advanced by `k` bytes modulo 2^16 (R10, R22). -/
def PcAdvanced (k : Nat) (s t : State) : Prop := t.pc.toNat = (s.pc.toNat + k) % 2 ^ 16

/-- Execute the instructions of a list one after another, stopping at the first that gives no next state. -/
def execAll (is : List Instr) (s : State) : Host.Outcome State Fault Refusal :=
  match is with
  | [] => .next s
  | i :: rest =>
    match exec i s with
    | .next t => execAll rest t
    | .fault e => .fault e
    | .refused e => .refused e

/-- The sprite that `DXYN` draws in state `s` has a set bit that falls on cell (cx, cy): column offset `c`, row `r`, bit
`7 - c` of the byte at `I + r`, every coordinate reduced (R211, R212). -/
def SpritePixel (s : State) (x y : Reg) (n : Nibble) (cx : Fin 64) (cy : Fin 32) : Prop :=
  ∃ c r : Nat, c < 8 ∧ r < n.toNat ∧ cx.val = ((s.getV x).toNat + c) % 64 ∧ cy.val = ((s.getV y).toNat + r) % 32 ∧
    (memRead s.mem (s.i.toNat + r)).getLsbD (7 - c) = true

/-- The invariant of the machine: SP is at most 16 (R35), memory is in its canonical form (every listed address is in
memory), and every stack entry is an address that a CALL can be fetched from, at most 0xFFE (R142). -/
abbrev State.Inv (s : State) : Prop :=
  s.sp.toNat ≤ 16 ∧ s.mem.wf = true ∧ ∀ k : Fin 16, s.stack[k].toNat ≤ 0xFFE

end Sys2Proof.Machine
end

