-- ==== Sys2Proof/Certificates/Slice0/Obligations.lean ====
section
/-!
DEFINITION. The statements for the provers. Each docstring names the rule of the spec that the statement formalises, and
the log entry where a statement rests on the model's own choice. Where a clause rests on a choice that the spec marks as
its own (its decisions D1 to D24), the docstring names the decision and the statement's basis is 'derived'. No statement
rests on a font byte: the two that say what Reset leaves in memory hold whatever bytes `Config.font` names (log entry 1).
None rests on the values that the model's own fields have at reset. PC advances modulo 2^16, which R10 writes into NEXT
and SKIP (decision D3; only a NOP executes where it matters, 90_conflicts.md C12).
-/

open Sys2Proof Sys2Proof.Machine

/-! ### Encoding (R90 to R101) -/

/-- Words of every family, written out from the patterns of R95, decode to the instruction they stand for
(95_test_vectors.md, section 2.1). That 0x5121 is a NOP is the spec's decision D13, exact patterns (log entry 13). -/
def Obligations.WrittenOutWordsDecode : Prop :=
  decode 0x00E0 = .cls ∧ decode 0x00EE = .ret ∧ decode 0x10E0 = .jp 0x0E0 ∧ decode 0x220A = .call 0x20A ∧
  decode 0x5120 = .seReg 1 2 ∧ decode 0x9AB0 = .sneReg 10 11 ∧ decode 0x7001 = .addImm 0 0x01 ∧
  decode 0x8127 = .subn 1 2 ∧ decode 0x812E = .shl 1 2 ∧ decode 0xB300 = .jpV0 0x300 ∧
  decode 0xD000 = .drw 0 0 0 ∧ decode 0xE19E = .skp 1 ∧ decode 0xE1A1 = .sknp 1 ∧ decode 0xF00A = .ldVxKey 0 ∧
  decode 0xFF65 = .loadRegs 15 ∧ decode 0x00FB = .nop 0x00FB ∧ decode 0x5121 = .nop 0x5121

/-- No bit of an encoding is dropped: every well-formed instruction, with every operand at every value, is what its
word decodes to. (Formats of R92, dispatch of R94; that classes 0, 5 and 9 match exactly is the spec's decision D13.)
-/
def Obligations.DecodeOfEncodeIsTheInstruction : Prop :=
  ∀ i : Instr, i.wellFormed = true → decode (encode i) = i

/-- The other direction: every one of the 65536 words decodes to a well-formed instruction whose word it is. That every
word decodes is R101, the spec's own derivation from R94 with decision D13 (log entry 13). That the word encodes back is
the model's choice of terms: a NOP keeps its reserved word (log entry 18), SHR and SHL keep their Y field (log entry
19). -/
def Obligations.EncodeOfDecodeIsTheWord : Prop :=
  ∀ w : Word, (decode w).wellFormed = true ∧ encode (decode w) = w

/-- R95: "A word `W` selects the row when `W & mask = match`". The decoder is written from R94's dispatch; it gives the
row's instruction exactly for the words that select the row. That rows 1, 2, 7 and 8 match exactly is the spec's decision
D13 (conflict C3, log entry 13). -/
def Obligations.WordSelectsTheRowOfItsInstruction : Prop :=
  ∀ w : Word, ∀ r ∈ opcodeRows, r.selects w = true ↔ (decode w).rowNumber = r.number

/-- R96: every word of the six reserved regions, and no other, decodes to NOP; it is the word that selects no row. That
classes 0, 5 and 9 match their patterns exactly is the spec's decision D13. -/
def Obligations.ReservedWordsAndNoOthersAreNop : Prop :=
  ∀ w : Word, (reservedWord w = true ↔ decode w = .nop w) ∧
    (reservedWord w = false ↔ ∃ r ∈ opcodeRows, r.selects w = true)

/-! ### Fetch (R64, R122) and the step (R120 to R128) -/

/-- R64: big-endian up to 0xFFE, and at every address above it the all-zero word, which is a NOP. -/
def Obligations.FetchIsBigEndianAndGuarded : Prop :=
  ∀ (m : Memory) (a : Nat),
    (a ≤ 0xFFE → (memFetch m a).toNat = (memRead m a).toNat * 256 + (memRead m (a + 1)).toNat) ∧
    (0xFFE < a → memFetch m a = 0 ∧ decode (memFetch m a) = .nop 0)

/-- A step runs the decoded instruction: nothing queued or a Cycle queued, not paused, two bytes at PC that decode to
`i`; then the step is `exec i`, after which the model's own inputs are fresh and nothing else has changed (R120, R122,
R123; the queue and the fresh inputs are the model's, log entries 2 and 3). -/
def Obligations.StepRunsTheInstructionAtPc : Prop :=
  (∀ (s : State) (i : Instr) (hi lo : Byte), s.pc.toNat ≤ 0xFFE → memRead s.mem s.pc.toNat = hi →
    memRead s.mem (s.pc.toNat + 1) = lo → decodeBytes [hi, lo] = .ok (i, []) →
    (s.pending = [] → s.inputs.paused = false → step s = onNext State.freshInputs (exec i s)) ∧
    (∀ args rest, s.pending = .cycle args :: rest → args.paused = false →
      step s = onNext State.freshInputs (exec i { s with inputs := args, pending := rest }))) ∧
  (∀ u : State, u.freshInputs.inputs.paused = u.inputs.paused ∧ ChangesOnly [.inputs, .drawn] u u.freshInputs)

/-- R122, R125: with PC at 0xFFF or above a Cycle that is not paused, queued or not, is a NOP whatever memory holds: PC
goes up by 2 modulo 2^16. (The modulus is decision D3. The queue, and that a step with nothing queued is a Cycle, are the
model's choices, log entry 2.) -/
def Obligations.StepAboveMemoryIsNop : Prop :=
  ∀ s : State, 0xFFF ≤ s.pc.toNat →
    (s.pending = [] → s.inputs.paused = false →
      ∃ t, step s = .next t ∧ PcAdvanced 2 s t ∧ ChangesOnly [.pc, .inputs, .drawn] s t) ∧
    (∀ args rest, s.pending = .cycle args :: rest → args.paused = false →
      ∃ t, step s = .next t ∧ t.pending = rest ∧ PcAdvanced 2 s t ∧
        ChangesOnly [.pc, .pending, .inputs, .drawn] s t)

/-- R121: "When the `paused` argument is 1 the event changes no state at all", whether the Cycle is queued or comes with
nothing queued. Only the model's own record of the host changes. That record and the queue are the model's choices (log entries 2, 3); that `paused` is an argument is decision
D4. -/
def Obligations.PausedCycleChangesNothing : Prop :=
  ∀ s : State,
    (s.pending = [] → s.inputs.paused = true → ∃ t, step s = .next t ∧ ChangesOnly [.inputs, .drawn] s t) ∧
    (∀ args rest, s.pending = .cycle args :: rest → args.paused = true →
      ∃ t, step s = .next t ∧ t.pending = rest ∧ ChangesOnly [.pending, .inputs, .drawn] s t)

/-- R125: a NOP, whatever its word, changes nothing but PC. -/
def Obligations.NopOnlyAdvancesPc : Prop :=
  ∀ (w : Word) (s : State), ∃ t, exec (.nop w) s = .next t ∧ PcAdvanced 2 s t ∧ ChangesOnly [.pc] s t

/-- R124: where each instruction leaves PC. (The modulus is decision D3, a key number above 15 D14, the one phase of
`FX0A` D15, the jump of a CALL with a full stack D11.) -/
def Obligations.PcEndsWhereItsInstructionSays : Prop :=
  ∀ (i : Instr) (s t : State), exec i s = .next t →
    match i with
    | .jp nnn => t.pc.toNat = nnn.toNat
    | .call nnn => t.pc.toNat = nnn.toNat
    | .jpV0 nnn => t.pc.toNat = (s.getV 0).toNat + nnn.toNat
    | .ret => ∀ k : Fin 16, if s.sp.toNat = 0 then PcAdvanced 2 s t
        else s.sp.toNat = k.val + 1 → t.pc.toNat = (s.stack[k].toNat + 2) % 2 ^ 16
    | .seImm x kk => PcAdvanced (if s.getV x = kk then 4 else 2) s t
    | .sneImm x kk => PcAdvanced (if s.getV x = kk then 2 else 4) s t
    | .seReg x y => PcAdvanced (if s.getV x = s.getV y then 4 else 2) s t
    | .sneReg x y => PcAdvanced (if s.getV x = s.getV y then 2 else 4) s t
    | .skp x => PcAdvanced (if s.key (s.getV x) = true then 4 else 2) s t
    | .sknp x => PcAdvanced (if s.key (s.getV x) = true then 2 else 4) s t
    | .ldVxKey _ => if ∃ k : Fin 16, s.inputs.keys.getLsbD k = true then PcAdvanced 2 s t else t.pc = s.pc
    | _ => PcAdvanced 2 s t

/-- R127: `KEYS` is read only by the three keypad instructions and `RND` only by `CXKK`: for every other instruction a
different value there changes nothing else in the result. R127 is the spec's own derivation. -/
def Obligations.InputsAreReadOnlyByTheirInstructions : Prop :=
  (∀ (i : Instr) (s : State) (k : BitVec 16), (∀ x, i ≠ .skp x ∧ i ≠ .sknp x ∧ i ≠ .ldVxKey x) →
    exec i { s with inputs := { s.inputs with keys := k } } =
      onNext (fun t => { t with inputs := { t.inputs with keys := k } }) (exec i s)) ∧
  (∀ (i : Instr) (s : State) (b : Byte), (∀ x kk, i ≠ .rnd x kk) →
    exec i { s with inputs := { s.inputs with rnd := b } } =
      onNext (fun t => { t with inputs := { t.inputs with rnd := b } }) (exec i s))

/-- R128: a jump to its own address is a fixed point of a Cycle that is not paused, queued or not: only the model's own
record of the host changes. (Decision D23; that record is the model's choice, log entries 2 and 3.) -/
def Obligations.JumpToSelfIsAFixedPoint : Prop :=
  ∀ (s : State) (nnn : Addr12), s.pc.toNat = nnn.toNat → s.fetched = .jp nnn →
    (s.pending = [] → s.inputs.paused = false → ∃ t, step s = .next t ∧ ChangesOnly [.inputs, .drawn] s t) ∧
    (∀ args rest, s.pending = .cycle args :: rest → args.paused = false →
      ∃ t, step s = .next t ∧ t.pending = rest ∧ ChangesOnly [.pending, .inputs, .drawn] s t)

/-! ### Control transfer (R140 to R148) -/

/-- R141: PC is NNN, whatever it is. -/
def Obligations.JumpSetsPcToAddress : Prop :=
  ∀ (nnn : Addr12) (s : State),
    ∃ t, exec (.jp nnn) s = .next t ∧ t.pc.toNat = nnn.toNat ∧ ChangesOnly [.pc] s t

/-- R147: PC is the whole of V0 plus the whole of NNN, not reduced. -/
def Obligations.JumpV0AddsWholeOperands : Prop :=
  ∀ (nnn : Addr12) (s : State),
    ∃ t, exec (.jpV0 nnn) s = .next t ∧ t.pc.toNat = (s.getV 0).toNat + nnn.toNat ∧ ChangesOnly [.pc] s t

/-- R142: with room CALL pushes its own address; with SP at 16 nothing is pushed; the jump is taken in both, at SP = 16 by
the spec's decision D11. -/
def Obligations.CallPushesItsOwnAddress : Prop :=
  ∀ (nnn : Addr12) (s : State), ∃ t, exec (.call nnn) s = .next t ∧ t.pc.toNat = nnn.toNat ∧
    (∀ k : Fin 16, s.sp.toNat = k.val →
      t.stack[k] = s.pc ∧ t.sp.toNat = k.val + 1 ∧ ChangesOnly [.pc, .sp, .stack k] s t) ∧
    (s.sp.toNat = 16 → ChangesOnly [.pc] s t)

/-- R140: with an entry in use RET goes to the address after the CALL and the entry stays; with none it is a NOP. In a
state that keeps the invariant a popped address plus 2 is at most 0x1000. -/
def Obligations.ReturnPopsAndStepsOverTheCall : Prop :=
  ∀ s : State, s.sp.toNat ≤ 16 → ∃ t, exec .ret s = .next t ∧
    (∀ k : Fin 16, s.sp.toNat = k.val + 1 → t.sp.toNat = k.val ∧
      t.pc.toNat = (s.stack[k].toNat + 2) % 2 ^ 16 ∧ (s.Inv → t.pc.toNat ≤ 0x1000) ∧ ChangesOnly [.pc, .sp] s t) ∧
    (s.sp.toNat = 0 → PcAdvanced 2 s t ∧ ChangesOnly [.pc] s t)

/-- R143, R144: the skips on an immediate. -/
def Obligations.SkipsCompareWithTheImmediate : Prop :=
  ∀ (x : Reg) (kk : Byte) (s : State),
    (∃ t, exec (.seImm x kk) s = .next t ∧ PcAdvanced (if (s.getV x).toNat = kk.toNat then 4 else 2) s t ∧
      ChangesOnly [.pc] s t) ∧
    (∃ t, exec (.sneImm x kk) s = .next t ∧ PcAdvanced (if (s.getV x).toNat = kk.toNat then 2 else 4) s t ∧
      ChangesOnly [.pc] s t)

/-- R145, R146: the skips on two registers; with X = Y the first always skips and the second never does. -/
def Obligations.SkipsCompareTwoRegisters : Prop :=
  ∀ (x y : Reg) (s : State),
    (∃ t, exec (.seReg x y) s = .next t ∧
      PcAdvanced (if (s.getV x).toNat = (s.getV y).toNat then 4 else 2) s t ∧ ChangesOnly [.pc] s t) ∧
    (∃ t, exec (.sneReg x y) s = .next t ∧
      PcAdvanced (if (s.getV x).toNat = (s.getV y).toNat then 2 else 4) s t ∧ ChangesOnly [.pc] s t)

/-- The source's pairing property S8 (R140, R142): calls nested within the room of the stack, followed by as many
returns, end after the first CALL, with SP as it was; nothing else has changed but the stack entries that were used,
those from SP up to SP plus the number of calls. (No decision is involved: the stack is never over- or underflowed.) -/
def Obligations.NestedCallsReturnToTheFirst : Prop :=
  ∀ (targets : List Addr12) (s : State), targets ≠ [] → s.sp.toNat + targets.length ≤ 16 →
    ∃ t, execAll (targets.map Instr.call ++ List.replicate targets.length .ret) s = .next t ∧
      PcAdvanced 2 s t ∧
      ∀ p : Piece, p ≠ .pc →
        (∀ k : Fin 16, p = .stack k → k.val < s.sp.toNat ∨ s.sp.toNat + targets.length ≤ k.val) → p.same s t

/-! ### Load, arithmetic, logic, shift, random (R160 to R173) -/

/-- R162, R164: the two loads write VX and nothing else. -/
def Obligations.LoadsWriteOnlyTheDestination : Prop :=
  ∀ (x y : Reg) (kk : Byte) (s : State),
    (∃ t, exec (.ldImm x kk) s = .next t ∧ t.getV x = kk ∧ PcAdvanced 2 s t ∧ ChangesOnly [.v x, .pc] s t) ∧
    (∃ t, exec (.ldReg x y) s = .next t ∧ t.getV x = s.getV y ∧ PcAdvanced 2 s t ∧ ChangesOnly [.v x, .pc] s t)

/-- R163: the sum modulo 256, and VF is not written (unless it is VX). -/
def Obligations.AddImmediateWrapsWithoutFlag : Prop :=
  ∀ (x : Reg) (kk : Byte) (s : State), ∃ t, exec (.addImm x kk) s = .next t ∧
    (t.getV x).toNat = ((s.getV x).toNat + kk.toNat) % 256 ∧ PcAdvanced 2 s t ∧ ChangesOnly [.v x, .pc] s t

/-- R165, R166, R167: bit by bit, and VF is not written (unless it is VX). -/
def Obligations.LogicActsBitByBitWithoutFlag : Prop :=
  ∀ (x y : Reg) (s : State),
    (∃ t, exec (.orReg x y) s = .next t ∧
      (∀ j, (t.getV x).getLsbD j = ((s.getV x).getLsbD j || (s.getV y).getLsbD j)) ∧ PcAdvanced 2 s t ∧
      ChangesOnly [.v x, .pc] s t) ∧
    (∃ t, exec (.andReg x y) s = .next t ∧
      (∀ j, (t.getV x).getLsbD j = ((s.getV x).getLsbD j && (s.getV y).getLsbD j)) ∧ PcAdvanced 2 s t ∧
      ChangesOnly [.v x, .pc] s t) ∧
    (∃ t, exec (.xorReg x y) s = .next t ∧
      (∀ j, (t.getV x).getLsbD j = ((s.getV x).getLsbD j ^^ (s.getV y).getLsbD j)) ∧ PcAdvanced 2 s t ∧
      ChangesOnly [.v x, .pc] s t)

/-- R168: the sum modulo 256, then VF is the carry; with X = F the flag is what VF holds (R161). That the flag is
written last is the spec's decision D12. -/
def Obligations.AddRegisterWritesSumThenCarry : Prop :=
  ∀ (x y : Reg) (s : State), ∃ t, exec (.addReg x y) s = .next t ∧
    (x ≠ 15 → (t.getV x).toNat = ((s.getV x).toNat + (s.getV y).toNat) % 256) ∧
    (t.getV 15).toNat = (if 255 < (s.getV x).toNat + (s.getV y).toNat then 1 else 0) ∧
    PcAdvanced 2 s t ∧ ChangesOnly [.v x, .v 15, .pc] s t

/-- R169, R171: the difference modulo 256, then VF is 1 when there is no borrow. With X = F the flag is what VF holds:
the flag is written last by the spec's decision D12. -/
def Obligations.SubtractionsWriteDifferenceThenNoBorrow : Prop :=
  ∀ (x y : Reg) (s : State),
    (∃ t, exec (.subReg x y) s = .next t ∧
      (x ≠ 15 → (t.getV x).toNat = ((s.getV x).toNat + 256 - (s.getV y).toNat) % 256) ∧
      (t.getV 15).toNat = (if (s.getV y).toNat ≤ (s.getV x).toNat then 1 else 0) ∧
      PcAdvanced 2 s t ∧ ChangesOnly [.v x, .v 15, .pc] s t) ∧
    (∃ t, exec (.subn x y) s = .next t ∧
      (x ≠ 15 → (t.getV x).toNat = ((s.getV y).toNat + 256 - (s.getV x).toNat) % 256) ∧
      (t.getV 15).toNat = (if (s.getV x).toNat ≤ (s.getV y).toNat then 1 else 0) ∧
      PcAdvanced 2 s t ∧ ChangesOnly [.v x, .v 15, .pc] s t)

/-- R170, R172: a shift by one of VX in place, then VF is the bit shifted out. VY, when it is neither VX nor VF, is not
changed; it is not read: the result is the same for every Y field. With X = F the flag is what VF holds (decision D12).
-/
def Obligations.ShiftsMoveVxByOneThenTheBitShiftedOut : Prop :=
  ∀ (x y : Reg) (s : State),
    (∃ t, exec (.shr x y) s = .next t ∧ (x ≠ 15 → (t.getV x).toNat = (s.getV x).toNat / 2) ∧
      (t.getV 15).toNat = (s.getV x).toNat % 2 ∧ PcAdvanced 2 s t ∧ ChangesOnly [.v x, .v 15, .pc] s t) ∧
    (∃ t, exec (.shl x y) s = .next t ∧ (x ≠ 15 → (t.getV x).toNat = (s.getV x).toNat * 2 % 256) ∧
      (t.getV 15).toNat = (s.getV x).toNat / 128 ∧ PcAdvanced 2 s t ∧ ChangesOnly [.v x, .v 15, .pc] s t)

/-- R173: the random byte of the Cycle, whatever it is, masked by KK. -/
def Obligations.RandomIsMaskedByTheImmediate : Prop :=
  ∀ (x : Reg) (kk : Byte) (s : State), ∃ t, exec (.rnd x kk) s = .next t ∧
    (∀ j, (t.getV x).getLsbD j = (s.inputs.rnd.getLsbD j && kk.getLsbD j)) ∧ PcAdvanced 2 s t ∧
    ChangesOnly [.v x, .pc] s t

/-- R21: no instruction changes VF but the seven flag writers and those that name VF as their destination. `FX1E` is a
flag writer by decision D9, `FX0A` loads a key in one phase by D15. -/
def Obligations.VfChangesOnlyByFlagOrDestination : Prop :=
  ∀ (i : Instr) (s t : State), exec i s = .next t → t.getV 15 ≠ s.getV 15 →
    match i with
    | .addReg _ _ => True
    | .subReg _ _ => True
    | .shr _ _ => True
    | .subn _ _ => True
    | .shl _ _ => True
    | .drw _ _ _ => True
    | .addI _ => True
    | .ldImm x _ => x = 15
    | .addImm x _ => x = 15
    | .ldReg x _ => x = 15
    | .orReg x _ => x = 15
    | .andReg x _ => x = 15
    | .xorReg x _ => x = 15
    | .rnd x _ => x = 15
    | .ldVxDt x => x = 15
    | .ldVxKey x => x = 15
    | .loadRegs x => x = 15
    | _ => False

/-! ### Index register and memory (R190 to R196) -/

/-- R190: I is NNN, and no instruction but `FX1E` can leave I at a new value above 0xFFF. -/
def Obligations.LoadIndexSetsI : Prop :=
  (∀ (nnn : Addr12) (s : State), ∃ t, exec (.ldI nnn) s = .next t ∧ t.i.toNat = nnn.toNat ∧ PcAdvanced 2 s t ∧
    ChangesOnly [.i, .pc] s t) ∧
  (∀ (i : Instr) (s t : State), exec i s = .next t → t.i ≠ s.i → 0xFFF < t.i.toNat → ∃ x, i = .addI x)

/-- R192: I is the whole of VX times 5, not of its low nibble (which the spec derives from the source's formula). -/
def Obligations.LoadFontSetsIToFiveTimesVx : Prop :=
  ∀ (x : Reg) (s : State), ∃ t, exec (.ldFont x) s = .next t ∧ t.i.toNat = (s.getV x).toNat * 5 ∧ PcAdvanced 2 s t ∧
    ChangesOnly [.i, .pc] s t

/-- R191: I is the 16-bit sum and VF its carry, always; with X = F the addend is the old VF. That VF is written is the
spec's decision D9, the wrap of I its decision D8. -/
def Obligations.AddIndexWrapsAndWritesCarry : Prop :=
  ∀ (x : Reg) (s : State), ∃ t, exec (.addI x) s = .next t ∧
    t.i.toNat = (s.i.toNat + (s.getV x).toNat) % 2 ^ 16 ∧
    (t.getV 15).toNat = (if 0xFFFF < s.i.toNat + (s.getV x).toNat then 1 else 0) ∧
    PcAdvanced 2 s t ∧ ChangesOnly [.i, .v 15, .pc] s t

/-- R193: the digits at I, I+1, I+2 where these are in memory; a byte outside memory is dropped, and every other byte
reads as before. (The guard per byte is decision D7.) -/
def Obligations.BcdStoresThreeDigits : Prop :=
  ∀ (x : Reg) (s : State), s.mem.wf = true → ∃ t, exec (.ldBcd x) s = .next t ∧
    (s.i.toNat ≤ 0xFFF → (memRead t.mem s.i.toNat).toNat = (s.getV x).toNat / 100) ∧
    (s.i.toNat + 1 ≤ 0xFFF → (memRead t.mem (s.i.toNat + 1)).toNat = (s.getV x).toNat / 10 % 10) ∧
    (s.i.toNat + 2 ≤ 0xFFF → (memRead t.mem (s.i.toNat + 2)).toNat = (s.getV x).toNat % 10) ∧
    PcAdvanced 2 s t ∧ ChangesOnly (.pc :: bytePieces s.i.toNat 3) s t

/-- R194: V0 to VX at I to I+X where these are in memory; I is not changed, and every byte outside I to I+X reads as
before. (The guard per byte is decision D7, the unchanged I decision D10.) -/
def Obligations.StoreRegistersWritesTheBlock : Prop :=
  ∀ (x : Reg) (s : State), s.mem.wf = true → ∃ t, exec (.storeRegs x) s = .next t ∧
    (∀ k : Reg, k ≤ x → s.i.toNat + k.val ≤ 0xFFF → memRead t.mem (s.i.toNat + k.val) = s.getV k) ∧
    PcAdvanced 2 s t ∧ ChangesOnly (.pc :: bytePieces s.i.toNat (x.val + 1)) s t

/-- R195: V0 to VX from I to I+X, a byte outside memory reading as 0; the registers above VX and I are not changed.
(The zero read outside memory is decision D7, the unchanged I decision D10.) -/
def Obligations.LoadRegistersReadsTheBlock : Prop :=
  ∀ (x : Reg) (s : State), ∃ t, exec (.loadRegs x) s = .next t ∧
    (∀ k : Reg, k ≤ x → t.getV k = if s.i.toNat + k.val ≤ 0xFFF then memRead s.mem (s.i.toNat + k.val) else 0) ∧
    PcAdvanced 2 s t ∧ ChangesOnly (.pc :: regPieces x) s t

/-- R63, R70 (vector M21): with I above 0xFFF the two storing instructions store nothing anywhere, and I + k is not
reduced to a low address. (Decisions D7 and D8.) -/
def Obligations.StoresAboveMemoryAreDropped : Prop :=
  ∀ (x : Reg) (s : State), 0xFFF < s.i.toNat →
    (∃ t, exec (.storeRegs x) s = .next t ∧ t.mem = s.mem ∧ PcAdvanced 2 s t ∧ ChangesOnly [.pc] s t) ∧
    (∃ t, exec (.ldBcd x) s = .next t ∧ t.mem = s.mem ∧ PcAdvanced 2 s t ∧ ChangesOnly [.pc] s t)

/-- A block stored and loaded again is the block: FX65 after FX55 with the same X gives back every register (R194,
R195). (I stays between the two by decision D10.) -/
def Obligations.LoadAfterStoreGivesTheRegistersBack : Prop :=
  ∀ (x : Reg) (s : State), s.mem.wf = true → s.i.toNat + x.val ≤ 0xFFF →
    ∃ t u, exec (.storeRegs x) s = .next t ∧ exec (.loadRegs x) t = .next u ∧ ∀ r : Reg, u.getV r = s.getV r

/-- R73, R65: a word stored by FX55 is what the next fetch at its address gives, V0 as the high byte. (Both rules are
the spec's own derivations.) -/
def Obligations.StoredBytesAreFetchedAtOnce : Prop :=
  ∀ (x : Reg) (s : State), s.mem.wf = true → s.i.toNat ≤ 0xFFE → 1 ≤ x →
    ∃ t, exec (.storeRegs x) s = .next t ∧
      (memFetch t.mem s.i.toNat).toNat = (s.getV 0).toNat * 256 + (s.getV 1).toNat

/-- R23, R24, R25, R26, R27, R28, R29, R31: which instructions change I, the stack, SP, the timers, memory, the
framebuffer and the draw flag. (That FX55 and FX65 leave I alone is decision D10.) -/
def Obligations.ControlStateChangesOnlyByItsInstructions : Prop :=
  ∀ (i : Instr) (s t : State), exec i s = .next t →
    (t.i ≠ s.i → (∃ nnn, i = .ldI nnn) ∨ (∃ x, i = .addI x) ∨ (∃ x, i = .ldFont x)) ∧
    (t.stack ≠ s.stack → ∃ nnn, i = .call nnn) ∧
    (t.sp ≠ s.sp → (∃ nnn, i = .call nnn) ∨ i = .ret) ∧
    (t.dt ≠ s.dt → ∃ x, i = .ldDtVx x) ∧
    (t.st ≠ s.st → ∃ x, i = .ldStVx x) ∧
    (t.mem ≠ s.mem → (∃ x, i = .ldBcd x) ∨ (∃ x, i = .storeRegs x)) ∧
    (t.fb ≠ s.fb → i = .cls ∨ ∃ x y n, i = .drw x y n) ∧
    (t.draw ≠ s.draw → (i = .cls ∨ ∃ x y n, i = .drw x y n) ∧ t.draw = true)

/-! ### Display (R210 to R213) -/

/-- R210: every cell 0 and the draw flag raised; nothing else changes. -/
def Obligations.ClearScreenClearsEveryCell : Prop :=
  ∀ s : State, ∃ t, exec .cls s = .next t ∧ (∀ x y, Framebuffer.cell t.fb x y = false) ∧ t.draw = true ∧
    PcAdvanced 2 s t ∧ ChangesOnly (.draw :: .pc :: cellPieces) s t

/-- R211, R212, R213: a cell is toggled exactly when a set sprite bit falls on it, VF is 1 exactly when such a cell was
1, and the draw flag is raised whatever was drawn. (Bit 7 leftmost, VF cleared first and the flag raised for N = 0 are
decision D17; that a sprite byte outside memory is an empty row is D7.) -/
def Obligations.DrawTogglesTheSpritesCells : Prop :=
  ∀ (x y : Reg) (n : Nibble) (s : State), ∃ t, exec (.drw x y n) s = .next t ∧
    (∀ cx cy, SpritePixel s x y n cx cy → Framebuffer.cell t.fb cx cy = !Framebuffer.cell s.fb cx cy) ∧
    (∀ cx cy, ¬ SpritePixel s x y n cx cy → Framebuffer.cell t.fb cx cy = Framebuffer.cell s.fb cx cy) ∧
    ((∃ cx cy, SpritePixel s x y n cx cy ∧ Framebuffer.cell s.fb cx cy = true) → t.getV 15 = 1) ∧
    ((¬ ∃ cx cy, SpritePixel s x y n cx cy ∧ Framebuffer.cell s.fb cx cy = true) → t.getV 15 = 0) ∧
    t.draw = true ∧ PcAdvanced 2 s t ∧ ChangesOnly (.v 15 :: .draw :: .pc :: cellPieces) s t

/-- R211's pseudocode: the same sprite drawn twice at the same place restores the framebuffer, and the second draw
reports VF = 1 exactly if some set sprite bit falls on a cell that was 0 before the first draw, and so is turned off by
the second (log entry 12: R211's prose says "if the sprite has any 1 bit", which its own pseudocode makes true only of
a sprite with such a bit). With X or Y equal to F the first draw moves the place, so these are other places. (Decisions
D7 and D17.) -/
def Obligations.DrawingTwiceRestoresTheFramebuffer : Prop :=
  ∀ (x y : Reg) (n : Nibble) (s : State), x ≠ 15 → y ≠ 15 →
    ∃ t u, exec (.drw x y n) s = .next t ∧ exec (.drw x y n) t = .next u ∧ u.fb = s.fb ∧
      ((∃ cx cy, SpritePixel s x y n cx cy ∧ Framebuffer.cell s.fb cx cy = false) → u.getV 15 = 1) ∧
      ((¬ ∃ cx cy, SpritePixel s x y n cx cy ∧ Framebuffer.cell s.fb cx cy = false) → u.getV 15 = 0)

/-- R31: no step changes a cell without leaving the draw flag raised, and a raised draw flag stays raised until
DrawAck. (Reset raises the flag by decision D6; the queue is the model's choice, log entry 2.) -/
def Obligations.DrawFlagFollowsEveryChangeUntilAcknowledged : Prop :=
  ∀ s t : State, step s = .next t →
    (t.fb ≠ s.fb → t.draw = true) ∧
    (s.draw = true → (∀ rest, s.pending ≠ .drawAck :: rest) → t.draw = true)

/-! ### Keypad and timers (R220 to R226) -/

/-- R220, R221, R222: the skips test the key whose number is the value of VX; a value above 15 reads as not down. (The
last is decision D14.) -/
def Obligations.KeySkipsTestTheKeyNumberedByVx : Prop :=
  ∀ (x : Reg) (s : State),
    (∃ t, exec (.skp x) s = .next t ∧ ChangesOnly [.pc] s t ∧
      PcAdvanced (if (s.getV x).toNat ≤ 15 ∧ s.inputs.keys.getLsbD (s.getV x).toNat = true then 4 else 2) s t) ∧
    (∃ t, exec (.sknp x) s = .next t ∧ ChangesOnly [.pc] s t ∧
      PcAdvanced (if (s.getV x).toNat ≤ 15 ∧ s.inputs.keys.getLsbD (s.getV x).toNat = true then 2 else 4) s t)

/-- R223: with a key down the least-numbered one is loaded and PC advances, in one Cycle; with none the state is the
same. (One phase and the least key are decision D15.) -/
def Obligations.KeyWaitLoadsTheLeastKeyOrWaits : Prop :=
  ∀ (x : Reg) (s : State),
    (∀ k : Fin 16, s.inputs.keys.getLsbD k = true → (∀ j : Fin 16, j < k → s.inputs.keys.getLsbD j = false) →
      ∃ t, exec (.ldVxKey x) s = .next t ∧ (t.getV x).toNat = k.val ∧ PcAdvanced 2 s t ∧
        ChangesOnly [.v x, .pc] s t) ∧
    ((∀ k : Fin 16, s.inputs.keys.getLsbD k = false) → exec (.ldVxKey x) s = .next s)

/-- R224, R225, R226: each timer move copies the byte and changes nothing else but PC. -/
def Obligations.TimerMovesCopyTheByte : Prop :=
  ∀ (x : Reg) (s : State),
    (∃ t, exec (.ldVxDt x) s = .next t ∧ t.getV x = s.dt ∧ PcAdvanced 2 s t ∧ ChangesOnly [.v x, .pc] s t) ∧
    (∃ t, exec (.ldDtVx x) s = .next t ∧ t.dt = s.getV x ∧ PcAdvanced 2 s t ∧ ChangesOnly [.dt, .pc] s t) ∧
    (∃ t, exec (.ldStVx x) s = .next t ∧ t.st = s.getV x ∧ PcAdvanced 2 s t ∧ ChangesOnly [.st, .pc] s t)

/-! ### Events (R240 to R257, R280 to R289) -/

/-- R248: both timers count down with a floor at 0, paused or not, and nothing else of the block changes. (That the
tick does not look at `paused` is decision D19; the queue is the model's choice, log entry 2.) -/
def Obligations.TimerTickCountsBothTimersDown : Prop :=
  ∀ (s : State) (rest : List Event), s.pending = .timerTick :: rest →
    ∃ t, step s = .next t ∧ t.pending = rest ∧ t.dt.toNat = s.dt.toNat - 1 ∧ t.st.toNat = s.st.toNat - 1 ∧
      ChangesOnly [.dt, .st, .pending] s t

/-- R224: after `k` ticks DT is `max(v - k, 0)`, and so is ST. (That one tick serves both timers and does not look at
`paused` is decision D19, log entry 17; the queue is the model's choice, log entry 2.) -/
def Obligations.TimersAfterTicksAreTheDifference : Prop :=
  ∀ (k : Nat) (s : State) (rest : List Event), s.pending = List.replicate k .timerTick ++ rest →
    ∃ t : State, Sys2Proof.core.run k s = .next t ∧ t.pending = rest ∧ t.dt.toNat = s.dt.toNat - k ∧
      t.st.toNat = s.st.toNat - k ∧ ChangesOnly [.dt, .st, .pending] s t

/-- R7, R244, with the tick of R248 and the timer instructions of R249: a tick and the execution of an instruction that
reaches no timer give the same state in either order. (The free order of events is decision D2.) -/
def Obligations.TickCommutesWithInstructionsThatReachNoTimer : Prop :=
  ∀ (i : Instr) (s : State), (∀ x, i ≠ .ldVxDt x ∧ i ≠ .ldDtVx x ∧ i ≠ .ldStVx x) →
    exec i s.timerTick = onNext State.timerTick (exec i s)

/-- R251: DrawAck clears the draw flag, whatever it was, and nothing else of the block changes. (The queue is the
model's choice, log entry 2.) -/
def Obligations.DrawAckClearsTheDrawFlag : Prop :=
  ∀ (s : State) (rest : List Event), s.pending = .drawAck :: rest →
    ∃ t, step s = .next t ∧ t.pending = rest ∧ t.draw = false ∧ ChangesOnly [.draw, .pending] s t

/-- R280: what a Reset event leaves, whatever the state was. The model's own record of the host stays (log entry 2).
Zeroed memory and the raised draw flag are decisions D5 and D6. -/
def Obligations.ResetEventLeavesTheResetValues : Prop :=
  ∀ (s : State) (rest : List Event), s.pending = .reset :: rest →
    ∃ t, step s = .next t ∧ (∀ r, t.getV r = 0) ∧ (∀ k : Fin 16, t.stack[k] = 0) ∧ t.sp = 0 ∧ t.i = 0 ∧ t.dt = 0 ∧
      t.st = 0 ∧ (∀ x y, Framebuffer.cell t.fb x y = false) ∧ t.pc = 0x200 ∧ t.draw = true ∧
      (∀ a, memRead t.mem a = if a < 80 then Config.font.getD a 0 else 0) ∧
      t.pending = rest ∧ t.inputs = s.inputs ∧ t.lastLoad = s.lastLoad ∧ t.drawn = s.drawn

/-- R38, R281: the state after reset, which is the state at power-on, element by element. The model's own four fields
are not spoken of. (Zeroed memory, the raised draw flag and power-on being reset are decisions D5, D6 and D21.) -/
def Obligations.ResetStateHasTheResetValues : Prop :=
  (∀ r, State.reset.getV r = 0) ∧ State.reset.pc = 0x200 ∧ State.reset.i = 0 ∧
  (∀ k : Fin 16, State.reset.stack[k] = 0) ∧ State.reset.sp = 0 ∧ State.reset.dt = 0 ∧ State.reset.st = 0 ∧
  State.reset.draw = true ∧ (∀ x y, Framebuffer.cell State.reset.fb x y = false) ∧
  (∀ a, memRead State.reset.mem a = if a < 80 then Config.font.getD a 0 else 0)

/-- R282: a ROM of at most 3584 bytes is loaded over a Reset, and every byte of memory is the font, the ROM or zero; a
longer ROM is refused, the host is told so, and the state is unchanged in every element. (Decisions D5 and D6 of Reset;
the queue and the kept report are the model's choices, log entries 2 and 4.) -/
def Obligations.LoadRomResetsAndCopiesOrRefuses : Prop :=
  ∀ (s : State) (bytes : List Byte) (rest : List Event), s.pending = .loadRom bytes :: rest →
    ∃ t, step s = .next t ∧ t.pending = rest ∧
      (bytes.length ≤ 3584 → t.lastLoad = some .ok ∧
        (∀ k, k < bytes.length → memRead t.mem (0x200 + k) = bytes.getD k 0) ∧
        (∀ a, a < 0x200 ∨ 0x200 + bytes.length ≤ a → memRead t.mem a = memRead State.reset.mem a) ∧
        (∀ p : Piece, (∀ a, p ≠ .mem a) → p ∉ [.inputs, .pending, .lastLoad, .drawn] → p.same State.reset t)) ∧
      (3584 < bytes.length → t.lastLoad = some .oversizeRom ∧ t.mem = s.mem ∧ ChangesOnly [.pending, .lastLoad] s t)

/-- R240: no instruction, no fetch, no access and no event stops the machine: every state has a next state. (R240 is
about instructions, fetch and accesses. That no host event stops a step either rests on the model's queue, log entry 2,
and on a refused load being a next state, log entry 4.) -/
def Obligations.EveryStateHasANextState : Prop :=
  (∀ (i : Instr) (s : State), ∃ t, exec i s = .next t) ∧ (∀ s : State, ∃ t, step s = .next t)

/-- R128: "every state ... has exactly one next state ... for ever": a run of any length ends in a state. (Decision D23
says what the end of a run is; the queue is the model's choice, log entry 2.) -/
def Obligations.NoRunEverStops : Prop :=
  ∀ (n : Nat) (s : State), ∃ t : State, Sys2Proof.core.run n s = .next t

/-- R35: the invariant holds at reset. (The canonical form of memory is the model's choice, log entry 6.) -/
def Obligations.TheInvariantHoldsAtReset : Prop := State.reset.Inv

/-- R35, R142: every event keeps the invariant: SP at most 16, memory canonical and within 0x000 to 0xFFF, every stack
entry an address that a CALL was fetched from. (The canonical form of memory is the model's choice, log entry 6.) -/
def Obligations.EveryStepKeepsTheInvariant : Prop :=
  ∀ s t : State, s.Inv → step s = .next t → t.Inv
end

