-- ==== Sys2Proof/Laws/Decode.lean ====
section
/-!
SUPPORT. The fields of the words that the encoder builds (spec R91, R92), and a word as its fields.
-/
namespace Sys2Proof

theorem getLsbD_wordNNN (c : Nibble) (nnn : Addr12) (j : Nat) :
    (wordNNN c nnn).getLsbD j = if j < 12 then nnn.getLsbD j else c.getLsbD (j - 12) :=
  (BitVec.getLsbD_append (x := c) (y := nnn)).trans (by simp)

theorem getLsbD_wordXKK (c : Nibble) (x : Reg) (kk : Byte) (j : Nat) :
    (wordXKK c x kk).getLsbD j =
      if j < 8 then kk.getLsbD j else if j < 12 then (BitVec.ofFin x : Nibble).getLsbD (j - 8)
      else c.getLsbD (j - 12) := by
  have h1 := BitVec.getLsbD_append (x := c ++ (BitVec.ofFin x : Nibble)) (y := kk) (i := j)
  have h2 := BitVec.getLsbD_append (x := c) (y := (BitVec.ofFin x : Nibble)) (i := j - 8)
  refine h1.trans ?_
  rw [h2]
  by_cases h8 : j < 8
  · simp [h8]
  · by_cases h12 : j < 12
    · simp [h8, h12, show j - 8 < 4 by omega]
    · simp [h8, h12, show ¬ j - 8 < 4 by omega, show j - 8 - 4 = j - 12 by omega]

theorem getLsbD_wordXYN (c : Nibble) (x y : Reg) (n : Nibble) (j : Nat) :
    (wordXYN c x y n).getLsbD j =
      if j < 4 then n.getLsbD j else if j < 8 then (BitVec.ofFin y : Nibble).getLsbD (j - 4)
      else if j < 12 then (BitVec.ofFin x : Nibble).getLsbD (j - 8) else c.getLsbD (j - 12) := by
  have h1 := BitVec.getLsbD_append (x := c ++ (BitVec.ofFin x : Nibble) ++ (BitVec.ofFin y : Nibble)) (y := n) (i := j)
  have h2 := BitVec.getLsbD_append (x := c ++ (BitVec.ofFin x : Nibble)) (y := (BitVec.ofFin y : Nibble)) (i := j - 4)
  have h3 := BitVec.getLsbD_append (x := c) (y := (BitVec.ofFin x : Nibble)) (i := j - 4 - 4)
  refine h1.trans ?_
  rw [h2, h3]
  by_cases h4 : j < 4
  · simp [h4]
  · by_cases h8 : j < 8
    · simp [h4, h8, show j - 4 < 4 by omega]
    · by_cases h12 : j < 12
      · simp [h4, h8, h12, show ¬ j - 4 < 4 by omega, show j - 4 - 4 = j - 8 by omega,
          show j - 8 < 4 by omega]
      · simp [h4, h8, h12, show ¬ j - 4 < 4 by omega, show ¬ j - 4 - 4 < 4 by omega,
          show j - 4 - 4 - 4 = j - 12 by omega]

@[simp] theorem classOf_wordNNN (c : Nibble) (nnn : Addr12) : classOf (wordNNN c nnn) = c := by
  apply BitVec.eq_of_getLsbD_eq; intro j hj
  simp [classOf, getLsbD_wordNNN, hj]

@[simp] theorem fieldNNN_wordNNN (c : Nibble) (nnn : Addr12) : fieldNNN (wordNNN c nnn) = nnn := by
  apply BitVec.eq_of_getLsbD_eq; intro j hj
  simp [fieldNNN, getLsbD_wordNNN, hj]

@[simp] theorem classOf_wordXKK (c : Nibble) (x : Reg) (kk : Byte) : classOf (wordXKK c x kk) = c := by
  apply BitVec.eq_of_getLsbD_eq; intro j hj
  simp [classOf, getLsbD_wordXKK, hj, show ¬ 12 + j < 8 by omega]

@[simp] theorem fieldX_wordXKK (c : Nibble) (x : Reg) (kk : Byte) : fieldX (wordXKK c x kk) = x := by
  have h : (wordXKK c x kk).extractLsb' 8 4 = (BitVec.ofFin x : Nibble) := by
    apply BitVec.eq_of_getLsbD_eq; intro j hj
    simp [getLsbD_wordXKK, hj, show 8 + j < 12 by omega]
  unfold fieldX; rw [h]

@[simp] theorem fieldKK_wordXKK (c : Nibble) (x : Reg) (kk : Byte) : fieldKK (wordXKK c x kk) = kk := by
  apply BitVec.eq_of_getLsbD_eq; intro j hj
  simp [fieldKK, getLsbD_wordXKK, hj]

@[simp] theorem classOf_wordXYN (c : Nibble) (x y : Reg) (n : Nibble) : classOf (wordXYN c x y n) = c := by
  apply BitVec.eq_of_getLsbD_eq; intro j hj
  simp [classOf, getLsbD_wordXYN, hj, show ¬ 12 + j < 4 by omega,
    show ¬ 12 + j < 8 by omega]

@[simp] theorem fieldX_wordXYN (c : Nibble) (x y : Reg) (n : Nibble) : fieldX (wordXYN c x y n) = x := by
  have h : (wordXYN c x y n).extractLsb' 8 4 = (BitVec.ofFin x : Nibble) := by
    apply BitVec.eq_of_getLsbD_eq; intro j hj
    simp [getLsbD_wordXYN, hj, show ¬ 8 + j < 4 by omega, show 8 + j < 12 by omega]
  unfold fieldX; rw [h]

@[simp] theorem fieldY_wordXYN (c : Nibble) (x y : Reg) (n : Nibble) : fieldY (wordXYN c x y n) = y := by
  have h : (wordXYN c x y n).extractLsb' 4 4 = (BitVec.ofFin y : Nibble) := by
    apply BitVec.eq_of_getLsbD_eq; intro j hj
    simp [getLsbD_wordXYN, hj, show 4 + j < 8 by omega]
  unfold fieldY; rw [h]

@[simp] theorem fieldN_wordXYN (c : Nibble) (x y : Reg) (n : Nibble) : fieldN (wordXYN c x y n) = n := by
  apply BitVec.eq_of_getLsbD_eq; intro j hj
  simp [fieldN, getLsbD_wordXYN, hj]

/-- A word is its class and its NNN (R91). -/
theorem wordNNN_fields (w : Word) : wordNNN (classOf w) (fieldNNN w) = w := by
  apply BitVec.eq_of_getLsbD_eq; intro j hj
  simp only [wordNNN, classOf, fieldNNN, BitVec.getLsbD_append, BitVec.getLsbD_extractLsb']
  by_cases h : j < 12
  · simp [h]
  · simp [h, show j - 12 < 4 by omega, show 12 + (j - 12) = j by omega]

/-- A word is its class, X and KK (R91). -/
theorem wordXKK_fields (w : Word) : wordXKK (classOf w) (fieldX w) (fieldKK w) = w := by
  apply BitVec.eq_of_getLsbD_eq; intro j hj
  simp only [wordXKK, classOf, fieldX, fieldKK, BitVec.ofFin_toFin, BitVec.getLsbD_append, BitVec.getLsbD_extractLsb']
  by_cases h8 : j < 8
  · simp [h8]
  · by_cases h12 : j < 12
    · simp [h8, show j - 8 < 4 by omega, show 8 + (j - 8) = j by omega]
    · simp [h8, show ¬ j - 8 < 4 by omega, show j - 8 - 4 < 4 by omega, show 12 + (j - 8 - 4) = j by omega]

/-- A word is its class, X, Y and N (R91). -/
theorem wordXYN_fields (w : Word) : wordXYN (classOf w) (fieldX w) (fieldY w) (fieldN w) = w := by
  apply BitVec.eq_of_getLsbD_eq; intro j hj
  simp only [wordXYN, classOf, fieldX, fieldY, fieldN, BitVec.ofFin_toFin, BitVec.getLsbD_append,
    BitVec.getLsbD_extractLsb']
  by_cases h4 : j < 4
  · simp [h4]
  · by_cases h8 : j < 8
    · simp [h4, show j - 4 < 4 by omega, show 4 + (j - 4) = j by omega]
    · by_cases h12 : j < 12
      · simp [h4, show ¬ j - 4 < 4 by omega, show j - 4 - 4 < 4 by omega, show 8 + (j - 4 - 4) = j by omega]
      · simp [h4, show ¬ j - 4 < 4 by omega, show ¬ j - 4 - 4 < 4 by omega, show j - 4 - 4 - 4 < 4 by omega,
          show 12 + (j - 4 - 4 - 4) = j by omega]

/-- The fields as numbers (R8, R91). -/
theorem classOf_toNat (w : Word) : (classOf w).toNat = w.toNat / 0x1000 := by
  have := w.isLt
  simp [classOf, BitVec.extractLsb'_toNat, Nat.shiftRight_eq_div_pow]; omega

theorem fieldN_toNat (w : Word) : (fieldN w).toNat = w.toNat % 0x10 := by
  simp [fieldN, BitVec.extractLsb'_toNat]

theorem fieldKK_toNat (w : Word) : (fieldKK w).toNat = w.toNat % 0x100 := by
  simp [fieldKK, BitVec.extractLsb'_toNat]

/-- The bytes of a word make it again (R64, R65). -/
@[simp] theorem wordOfBytes_high_low (w : Word) : wordOfBytes (highByte w) (lowByte w) = w := by
  apply BitVec.eq_of_getLsbD_eq; intro j hj
  simp only [wordOfBytes, highByte, lowByte, BitVec.getLsbD_append, BitVec.getLsbD_extractLsb']
  by_cases h8 : j < 8
  · simp [h8]
  · simp [h8, show j - 8 < 8 by omega, show 8 + (j - 8) = j by omega]

/-! ### The masks of the opcode map (R95) as fields -/

/-- The mask 0xF000 keeps the class. -/
theorem and_mask_class (w : Word) : w &&& 0xF000 = wordNNN (classOf w) 0 := by
  apply BitVec.eq_of_getLsbD_eq; intro j hj
  rw [← wordNNN_fields w, classOf_wordNNN, BitVec.getLsbD_and, getLsbD_wordNNN, getLsbD_wordNNN]
  have hm : (0xF000 : Word).getLsbD j = decide (12 ≤ j) := by revert j; decide
  rw [hm]
  by_cases h : j < 12
  · simp [h, show ¬ 12 ≤ j by omega]
  · simp [h, show 12 ≤ j by omega]

/-- The mask 0xF00F keeps the class and N. -/
theorem and_mask_class_N (w : Word) : w &&& 0xF00F = wordXYN (classOf w) 0 0 (fieldN w) := by
  apply BitVec.eq_of_getLsbD_eq; intro j hj
  rw [← wordXYN_fields w, classOf_wordXYN, fieldN_wordXYN, BitVec.getLsbD_and, getLsbD_wordXYN, getLsbD_wordXYN]
  have hm : (0xF00F : Word).getLsbD j = decide (j < 4 ∨ 12 ≤ j) := by revert j; decide
  rw [hm]
  by_cases h4 : j < 4
  · simp [h4]
  · by_cases h12 : j < 12
    · by_cases h8 : j < 8 <;> simp [h4, h8, h12, show ¬ 12 ≤ j by omega]
    · simp [h4, h12, show ¬ j < 8 by omega, show 12 ≤ j by omega]

/-- The mask 0xF0FF keeps the class and KK. -/
theorem and_mask_class_KK (w : Word) : w &&& 0xF0FF = wordXKK (classOf w) 0 (fieldKK w) := by
  apply BitVec.eq_of_getLsbD_eq; intro j hj
  rw [← wordXKK_fields w, classOf_wordXKK, fieldKK_wordXKK, BitVec.getLsbD_and, getLsbD_wordXKK, getLsbD_wordXKK]
  have hm : (0xF0FF : Word).getLsbD j = decide (j < 8 ∨ 12 ≤ j) := by revert j; decide
  rw [hm]
  by_cases h8 : j < 8
  · simp [h8]
  · by_cases h12 : j < 12
    · simp [h8, h12, show ¬ 12 ≤ j by omega]
    · simp [h8, h12, show 12 ≤ j by omega]

/-- The mask 0xFFFF keeps every bit. -/
theorem and_mask_all (w : Word) : w &&& 0xFFFF = w := by
  apply BitVec.eq_of_getLsbD_eq; intro j hj
  have hm : (0xFFFF : Word).getLsbD j = true := by revert j; decide
  rw [BitVec.getLsbD_and, hm, Bool.and_true]

theorem wordNNN_inj {c c' : Nibble} {a a' : Addr12} : wordNNN c a = wordNNN c' a' ↔ c = c' ∧ a = a' :=
  ⟨fun h => ⟨by simpa using congrArg classOf h, by simpa using congrArg fieldNNN h⟩, fun h => by rw [h.1, h.2]⟩

theorem wordXKK_inj {c c' : Nibble} {x x' : Reg} {k k' : Byte} :
    wordXKK c x k = wordXKK c' x' k' ↔ c = c' ∧ x = x' ∧ k = k' :=
  ⟨fun h => ⟨by simpa using congrArg classOf h, by simpa using congrArg fieldX h, by simpa using congrArg fieldKK h⟩,
    fun h => by rw [h.1, h.2.1, h.2.2]⟩

theorem wordXYN_inj {c c' : Nibble} {x x' y y' : Reg} {n n' : Nibble} :
    wordXYN c x y n = wordXYN c' x' y' n' ↔ c = c' ∧ x = x' ∧ y = y' ∧ n = n' :=
  ⟨fun h => ⟨by simpa using congrArg classOf h, by simpa using congrArg fieldX h, by simpa using congrArg fieldY h,
    by simpa using congrArg fieldN h⟩, fun h => by rw [h.1, h.2.1, h.2.2.1, h.2.2.2]⟩

end Sys2Proof
end

