-- ==== Sys2Proof/Laws/Memory.lean ====
section
/-!
SUPPORT. The laws of memory: every operation keeps the canonical form, and a read after a write (spec R62, R63, R71).
-/
namespace Sys2Proof.Machine

/-- A canonical list from `lo` up says nothing of the addresses below `lo`. -/
theorem Memory.peek_of_lt {m : Memory} {lo a : Nat} (h : Memory.wfFrom lo m = true) (ha : a < lo) :
    Memory.peek m a = Memory.unlisted a := by
  induction m generalizing lo with
  | nil => rfl
  | cons c rest ih =>
    obtain ⟨k, b⟩ := c
    simp only [Memory.wfFrom, Bool.and_eq_true, decide_eq_true_eq] at h
    have hne : a ≠ k := by omega
    simp only [Memory.peek, hne, if_false]
    exact ih h.2 (by omega)

/-- A canonical list from `lo` up is canonical from any lower address. -/
theorem Memory.wfFrom_mono {m : Memory} {lo lo' : Nat} (h : Memory.wfFrom lo m = true) (hl : lo' ≤ lo) :
    Memory.wfFrom lo' m = true := by
  cases m with
  | nil => rfl
  | cons c rest =>
    obtain ⟨k, b⟩ := c
    simp only [Memory.wfFrom, Bool.and_eq_true, decide_eq_true_eq] at h ⊢
    exact ⟨⟨⟨by omega, h.1.1.2⟩, h.1.2⟩, h.2⟩

/-- A write into memory keeps the canonical form from `lo` up. -/
theorem Memory.poke_wfFrom {m : Memory} {lo a : Nat} (b : Byte) (h : Memory.wfFrom lo m = true) (hlo : lo ≤ a)
    (ha : a < Config.memSize) : Memory.wfFrom lo (Memory.poke m a b) = true := by
  induction m generalizing lo with
  | nil =>
    by_cases hb : b = Memory.unlisted a <;> simp [Memory.poke, Memory.wfFrom, hb, hlo, ha]
  | cons c rest ih =>
    obtain ⟨k, c⟩ := c
    have h' := h
    simp only [Memory.wfFrom, Bool.and_eq_true, decide_eq_true_eq, bne_iff_ne, ne_eq] at h'
    obtain ⟨⟨⟨hk, hkm⟩, hc⟩, hrest⟩ := h'
    unfold Memory.poke
    split
    · split
      · exact h
      · rename_i hlt hb
        simp [Memory.wfFrom, hlo, ha, hb, hkm, hc, hrest, Nat.succ_le_of_lt hlt]
    · split
      · rename_i hak
        subst hak
        split
        · exact Memory.wfFrom_mono hrest (by omega)
        · rename_i hb
          simp [Memory.wfFrom, hlo, ha, hb, hrest]
      · have hlt : k + 1 ≤ a := by omega
        simp [Memory.wfFrom, hk, hkm, hc, ih hrest hlt]

/-- A read after a write into canonical memory: the byte written at its address, the old byte at every other. -/
theorem Memory.peek_poke {m : Memory} {lo : Nat} (a : Nat) (b : Byte) (h : Memory.wfFrom lo m = true) (c : Nat) :
    Memory.peek (Memory.poke m a b) c = if c = a then b else Memory.peek m c := by
  induction m generalizing lo with
  | nil =>
    unfold Memory.poke
    by_cases hb : b = Memory.unlisted a <;> by_cases hc : c = a <;> simp [Memory.peek, hb, hc]
  | cons d rest ih =>
    obtain ⟨k, d⟩ := d
    simp only [Memory.wfFrom, Bool.and_eq_true, decide_eq_true_eq] at h
    unfold Memory.poke
    split
    · rename_i hlt
      have below : Memory.peek ((k, d) :: rest) a = Memory.unlisted a := by
        have hne : a ≠ k := by omega
        simp only [Memory.peek, hne, if_false]
        exact Memory.peek_of_lt h.2 (by omega)
      split
      · rename_i hb
        by_cases hc : c = a
        · subst hc; simp [below, hb]
        · simp [hc]
      · by_cases hc : c = a <;> simp [Memory.peek, hc]
    · split
      · rename_i hak
        subst hak
        split
        · rename_i hb
          by_cases hc : c = a
          · subst hc; simp [Memory.peek_of_lt h.2 (Nat.lt_succ_self _), hb]
          · simp [Memory.peek, hc]
        · by_cases hc : c = a <;> simp [Memory.peek, hc]
      · rename_i hak
        have hne : ¬ k = a := fun e => hak e.symm
        by_cases hck : c = k
        · subst hck; simp [Memory.peek, hne]
        · simp [Memory.peek, hck, ih h.2]

/-- A guarded write keeps the canonical form. -/
theorem memWrite_wf {m : Memory} (a : Nat) (b : Byte) (h : Memory.wf m = true) : Memory.wf (memWrite m a b) = true := by
  unfold memWrite
  split
  · exact Memory.poke_wfFrom b h (Nat.zero_le _) (by simp only [Config.memSize]; omega)
  · exact h

/-- A guarded write of several bytes keeps the canonical form. -/
theorem memWriteBytes_wf {m : Memory} (a : Nat) (bs : List Byte) (h : Memory.wf m = true) :
    Memory.wf (memWriteBytes m a bs) = true := by
  induction bs generalizing m a with
  | nil => exact h
  | cons b rest ih => exact ih _ (memWrite_wf a b h)

/-- A guarded read after a guarded write (R62, R63). -/
theorem memRead_memWrite {m : Memory} (h : Memory.wf m = true) (a : Nat) (b : Byte) (c : Nat) :
    memRead (memWrite m a b) c = if c = a ∧ a ≤ 0xFFF then b else memRead m c := by
  unfold memWrite memRead
  by_cases ha : a ≤ 0xFFF
  · simp only [ha, if_true, and_true, Memory.peek_poke a b h]
    by_cases hc : c = a
    · subst hc; simp [ha]
    · simp [hc]
  · simp [ha]

/-- A guarded read after successive guarded writes: the bytes written where they fall in memory (R63, R67). -/
theorem memRead_memWriteBytes {m : Memory} (h : Memory.wf m = true) (a : Nat) (bs : List Byte) (c : Nat) :
    memRead (memWriteBytes m a bs) c =
      if a ≤ c ∧ c < a + bs.length ∧ c ≤ 0xFFF then bs.getD (c - a) 0 else memRead m c := by
  induction bs generalizing m a with
  | nil => simp only [memWriteBytes, List.length_nil]; rw [if_neg (by omega)]
  | cons b rest ih =>
    simp only [memWriteBytes, List.length_cons, ih (memWrite_wf a b h), memRead_memWrite h]
    by_cases hc : c = a
    · subst hc
      by_cases hm : c ≤ 0xFFF
      · rw [if_neg (by omega), if_pos ⟨rfl, hm⟩, if_pos (by omega)]; simp
      · rw [if_neg (by omega), if_neg (by omega), if_neg (by omega)]
    · have hiff : (a + 1 ≤ c ∧ c < a + 1 + rest.length ∧ c ≤ 0xFFF) ↔
          (a ≤ c ∧ c < a + (rest.length + 1) ∧ c ≤ 0xFFF) := by omega
      by_cases hin : a ≤ c ∧ c < a + (rest.length + 1) ∧ c ≤ 0xFFF
      · rw [if_pos (hiff.mpr hin), if_pos hin]
        have : c - a = (c - (a + 1)) + 1 := by omega
        rw [this, List.getD_cons_succ]
      · rw [if_neg (fun x => hin (hiff.mp x)), if_neg hin, if_neg (by tauto)]

/-- A read outside memory gives zero (R62). -/
theorem memRead_of_gt (m : Memory) {a : Nat} (h : 0xFFF < a) : memRead m a = 0 := by
  unfold memRead; rw [if_neg (by omega)]

/-- A fetch inside memory is the two bytes, high byte first (R64). -/
theorem memFetch_of_le (m : Memory) {a : Nat} (h : a ≤ 0xFFE) : memFetch m a = memRead m a ++ memRead m (a + 1) := by
  unfold memFetch memRead
  rw [if_pos h, if_pos (by omega), if_pos (by omega)]

/-- A fetch outside memory is the all-zero word (R64). -/
theorem memFetch_of_gt (m : Memory) {a : Nat} (h : 0xFFE < a) : memFetch m a = 0 := by
  unfold memFetch; rw [if_neg (by omega)]

end Sys2Proof.Machine
end

