-- ==== Sys2Proof/Laws/Display.lean ====
section
/-!
SUPPORT. What drawing a sprite does to every cell and to the collision: the loops of spec R211 visit no cell twice, so
a cell is toggled exactly when a set sprite bit falls on it.
-/
namespace Sys2Proof.Machine

theorem cell_toggle (fb : Framebuffer) (x x' : Fin 64) (y y' : Fin 32) :
    Framebuffer.cell (fb.toggle x y) x' y' =
      if x' = x ∧ y' = y then !Framebuffer.cell fb x' y' else Framebuffer.cell fb x' y' := by
  unfold Framebuffer.cell Framebuffer.toggle
  by_cases hy : y' = y
  · subst hy
    by_cases hx : x' = x
    · subst hx; simp
    · have hne : x.val ≠ x'.val := fun e => hx (Fin.ext e.symm)
      simp [hne, hx]
  · have hne : y.val ≠ y'.val := fun e => hy (Fin.ext e.symm)
    simp [hne, hy]

@[simp] theorem cell_blank (x : Fin 64) (y : Fin 32) : Framebuffer.cell Framebuffer.blank x y = false := by
  simp [Framebuffer.cell, Framebuffer.blank]

/-- Two framebuffers with the same cells are the same. -/
theorem Framebuffer.ext_cell {f g : Framebuffer} (h : ∀ x y, Framebuffer.cell f x y = Framebuffer.cell g x y) : f = g := by
  apply Vector.ext
  intro j hj
  apply Vector.ext
  intro k hk
  exact h ⟨k, hk⟩ ⟨j, hj⟩

/-- The set bits of one sprite row, up to column offset `n`, that fall on column `cx`. -/
def RowPixel (b : Byte) (x0 n : Nat) (cx : Fin 64) : Prop :=
  ∃ c, c < n ∧ cx.val = (x0 + c) % 64 ∧ b.getLsbD (7 - c) = true

/-- The set bits of a sprite, up to row `n`, that fall on cell (cx, cy). -/
def RowsPixel (m : Memory) (a x0 y0 n : Nat) (cx : Fin 64) (cy : Fin 32) : Prop :=
  ∃ r, r < n ∧ cy.val = (y0 + r) % 32 ∧ RowPixel (memRead m (a + r)) x0 8 cx

theorem rowPixel_succ (b : Byte) (x0 k : Nat) (cx : Fin 64) :
    RowPixel b x0 (k + 1) cx ↔
      RowPixel b x0 k cx ∨ (cx = columnOf (x0 + k) ∧ b.getLsbD (7 - k) = true) := by
  have hofNat : cx = columnOf (x0 + k) ↔ cx.val = (x0 + k) % 64 := by
    rw [Fin.ext_iff]; rfl
  rw [hofNat]
  constructor
  · rintro ⟨c, hc, hx, hb⟩
    by_cases h : c = k
    · subst h; exact .inr ⟨hx, hb⟩
    · exact .inl ⟨c, by omega, hx, hb⟩
  · rintro (⟨c, hc, hx, hb⟩ | ⟨hx, hb⟩)
    · exact ⟨c, by omega, hx, hb⟩
    · exact ⟨k, by omega, hx, hb⟩

/-- Within a row of at most 64 columns the next pixel is not one already drawn. -/
theorem rowPixel_fresh (b : Byte) (x0 k : Nat) (hk : k < 64) : ¬ RowPixel b x0 k (columnOf (x0 + k)) := by
  rintro ⟨c, hc, hx, -⟩
  simp only [columnOf, Fin.ofNat] at hx
  omega

open Classical in
/-- One row of a sprite: the toggled cells and the collision. -/
theorem rowUpTo_spec (b : Byte) (x0 : Nat) (y : Fin 32) (n : Nat) (hn : n ≤ 64) (c : Canvas) :
    (∀ cx cy, Framebuffer.cell (Canvas.rowUpTo b x0 y n c).fb cx cy =
      if cy = y ∧ RowPixel b x0 n cx then !Framebuffer.cell c.fb cx cy else Framebuffer.cell c.fb cx cy) ∧
    ((Canvas.rowUpTo b x0 y n c).hit = true ↔
      c.hit = true ∨ ∃ cx, RowPixel b x0 n cx ∧ Framebuffer.cell c.fb cx y = true) := by
  induction n with
  | zero =>
    have hno : ∀ cx, ¬ RowPixel b x0 0 cx := fun cx ⟨_, h, _⟩ => absurd h (Nat.not_lt_zero _)
    simp [Canvas.rowUpTo, hno]
  | succ k ih =>
    obtain ⟨ihc, ihh⟩ := ih (by omega)
    have hfresh := rowPixel_fresh b x0 k (by omega)
    by_cases hb : b.getLsbD (7 - k) = true
    · have hrow : Canvas.rowUpTo b x0 y (k + 1) c =
          (Canvas.rowUpTo b x0 y k c).dot (columnOf (x0 + k)) y := by
        simp only [Canvas.rowUpTo, hb, if_true]
      rw [hrow]
      refine ⟨fun cx cy => ?_, ?_⟩
      · simp only [Canvas.dot, cell_toggle, ihc, rowPixel_succ, hb, and_true]
        by_cases hx : cx = columnOf (x0 + k)
        · subst hx
          by_cases hy : cy = y <;> simp [hy, hfresh]
        · simp [hx]
      · simp only [Canvas.dot, Bool.or_eq_true, ihh, ihc, hfresh, and_false, if_false, rowPixel_succ, hb, and_true]
        constructor
        · rintro ((h | ⟨cx, hp, hc⟩) | hc)
          · exact .inl h
          · exact .inr ⟨cx, .inl hp, hc⟩
          · exact .inr ⟨_, .inr rfl, hc⟩
        · rintro (h | ⟨cx, hp | rfl, hc⟩)
          · exact .inl (.inl h)
          · exact .inl (.inr ⟨cx, hp, hc⟩)
          · exact .inr hc
    · have hrow : Canvas.rowUpTo b x0 y (k + 1) c = Canvas.rowUpTo b x0 y k c := by
        simp only [Canvas.rowUpTo, hb]; rfl
      have hsame : ∀ cx, RowPixel b x0 (k + 1) cx ↔ RowPixel b x0 k cx := by
        intro cx; rw [rowPixel_succ]; simp [hb]
      rw [hrow]
      exact ⟨fun cx cy => by rw [ihc]; simp only [hsame], by rw [ihh]; simp only [hsame]⟩

theorem rowsPixel_succ (m : Memory) (a x0 y0 k : Nat) (cx : Fin 64) (cy : Fin 32) :
    RowsPixel m a x0 y0 (k + 1) cx cy ↔
      RowsPixel m a x0 y0 k cx cy ∨ (cy = rowOf (y0 + k) ∧ RowPixel (memRead m (a + k)) x0 8 cx) := by
  have hofNat : cy = rowOf (y0 + k) ↔ cy.val = (y0 + k) % 32 := by
    rw [Fin.ext_iff]; rfl
  rw [hofNat]
  constructor
  · rintro ⟨r, hr, hy, hp⟩
    by_cases h : r = k
    · subst h; exact .inr ⟨hy, hp⟩
    · exact .inl ⟨r, by omega, hy, hp⟩
  · rintro (⟨r, hr, hy, hp⟩ | ⟨hy, hp⟩)
    · exact ⟨r, by omega, hy, hp⟩
    · exact ⟨k, by omega, hy, hp⟩

theorem rowsPixel_fresh (m : Memory) (a x0 y0 k : Nat) (hk : k < 32) (cx : Fin 64) :
    ¬ RowsPixel m a x0 y0 k cx (rowOf (y0 + k)) := by
  rintro ⟨r, hr, hy, -⟩
  simp only [rowOf, Fin.ofNat] at hy
  omega

open Classical in
/-- A whole sprite of at most 32 rows: the toggled cells and the collision (R211). -/
theorem rowsUpTo_spec (m : Memory) (a x0 y0 n : Nat) (hn : n ≤ 32) (c : Canvas) :
    (∀ cx cy, Framebuffer.cell (Canvas.rowsUpTo m a x0 y0 n c).fb cx cy =
      if RowsPixel m a x0 y0 n cx cy then !Framebuffer.cell c.fb cx cy else Framebuffer.cell c.fb cx cy) ∧
    ((Canvas.rowsUpTo m a x0 y0 n c).hit = true ↔
      c.hit = true ∨ ∃ cx cy, RowsPixel m a x0 y0 n cx cy ∧ Framebuffer.cell c.fb cx cy = true) := by
  induction n with
  | zero =>
    have hno : ∀ cx cy, ¬ RowsPixel m a x0 y0 0 cx cy := fun cx cy ⟨_, h, _⟩ => absurd h (Nat.not_lt_zero _)
    simp [Canvas.rowsUpTo, hno]
  | succ k ih =>
    obtain ⟨ihc, ihh⟩ := ih (by omega)
    have hfresh := rowsPixel_fresh m a x0 y0 k (by omega)
    obtain ⟨hc, hh⟩ := rowUpTo_spec (memRead m (a + k)) x0 (rowOf (y0 + k)) 8 (by omega)
      (Canvas.rowsUpTo m a x0 y0 k c)
    simp only [Canvas.rowsUpTo]
    refine ⟨fun cx cy => ?_, ?_⟩
    · rw [hc, ihc]
      simp only [rowsPixel_succ]
      by_cases hy : cy = rowOf (y0 + k)
      · subst hy
        by_cases hp : RowPixel (memRead m (a + k)) x0 8 cx <;> simp [hp, hfresh]
      · simp [hy]
    · rw [hh, ihh]
      simp only [ihc, hfresh, if_false, rowsPixel_succ]
      constructor
      · rintro ((h | ⟨cx, cy, hp, hcell⟩) | ⟨cx, hp, hcell⟩)
        · exact .inl h
        · exact .inr ⟨cx, cy, .inl hp, hcell⟩
        · exact .inr ⟨cx, _, .inr ⟨rfl, hp⟩, hcell⟩
      · rintro (h | ⟨cx, cy, hp | ⟨rfl, hp⟩, hcell⟩)
        · exact .inl (.inl h)
        · exact .inl (.inr ⟨cx, cy, hp, hcell⟩)
        · exact .inr ⟨cx, hp, hcell⟩

end Sys2Proof.Machine
end

