-- ==== Sys2Proof/Laws/PerInstr.lean ====
section
/-!
SUPPORT. The per-instruction family `EncodeSelectsRow`: the word of an instruction selects the instruction's own row of
the opcode map (spec R95). One lemma per constructor.
-/
namespace Sys2Proof.Laws.EncodeSelectsRow

/-- The word that encodes `i` selects every row of R95 that has `i`'s row number. -/
def Statement (i : Instr) : Prop := ∀ r ∈ opcodeRows, r.number = i.rowNumber → r.selects (encode i) = true

/-- A row of the map with a given number is the row of that number. -/
theorem of_row {i : Instr} (q : OpcodeRow) (h : ∀ r ∈ opcodeRows, r.number = i.rowNumber → r = q)
    (hq : q.selects (encode i) = true) : Statement i := fun r hr hn => by rw [h r hr hn]; exact hq

/-- The class alone is fixed: format NNN. -/
theorem selects_NNN {k : Nat} {v : Word} {c : Nibble} {a : Addr12} (h : wordNNN c 0 = v) :
    OpcodeRow.selects ⟨k, v, 0xF000⟩ (wordNNN c a) = true := by
  simp only [OpcodeRow.selects, and_mask_class, classOf_wordNNN, h, beq_self_eq_true]

/-- The class alone is fixed: format XKK. -/
theorem selects_XKK {k : Nat} {v : Word} {c : Nibble} {x : Reg} {b : Byte} (h : wordNNN c 0 = v) :
    OpcodeRow.selects ⟨k, v, 0xF000⟩ (wordXKK c x b) = true := by
  simp only [OpcodeRow.selects, and_mask_class, classOf_wordXKK, h, beq_self_eq_true]

/-- The class alone is fixed: format XYN. -/
theorem selects_XYN {k : Nat} {v : Word} {c : Nibble} {x y : Reg} {n : Nibble} (h : wordNNN c 0 = v) :
    OpcodeRow.selects ⟨k, v, 0xF000⟩ (wordXYN c x y n) = true := by
  simp only [OpcodeRow.selects, and_mask_class, classOf_wordXYN, h, beq_self_eq_true]

/-- The class and N are fixed: format XY. -/
theorem selects_XY {k : Nat} {v : Word} {c : Nibble} {x y : Reg} {n : Nibble} (h : wordXYN c 0 0 n = v) :
    OpcodeRow.selects ⟨k, v, 0xF00F⟩ (wordXYN c x y n) = true := by
  simp only [OpcodeRow.selects, and_mask_class_N, classOf_wordXYN, fieldN_wordXYN, h, beq_self_eq_true]

/-- The class and KK are fixed: format X. -/
theorem selects_X {k : Nat} {v : Word} {c : Nibble} {x : Reg} {b : Byte} (h : wordXKK c 0 b = v) :
    OpcodeRow.selects ⟨k, v, 0xF0FF⟩ (wordXKK c x b) = true := by
  simp only [OpcodeRow.selects, and_mask_class_KK, classOf_wordXKK, fieldKK_wordXKK, h, beq_self_eq_true]

theorem cls : Statement .cls :=
  of_row ⟨1, 0x00E0, 0xFFFF⟩ (by simp only [Instr.rowNumber]; decide) rfl

theorem ret : Statement .ret :=
  of_row ⟨2, 0x00EE, 0xFFFF⟩ (by simp only [Instr.rowNumber]; decide) rfl

theorem jp (nnn : Addr12) : Statement (.jp nnn) :=
  of_row ⟨3, 0x1000, 0xF000⟩ (by simp only [Instr.rowNumber]; decide) (selects_NNN (by decide))

theorem call (nnn : Addr12) : Statement (.call nnn) :=
  of_row ⟨4, 0x2000, 0xF000⟩ (by simp only [Instr.rowNumber]; decide) (selects_NNN (by decide))

theorem seImm (x : Reg) (kk : Byte) : Statement (.seImm x kk) :=
  of_row ⟨5, 0x3000, 0xF000⟩ (by simp only [Instr.rowNumber]; decide) (selects_XKK (by decide))

theorem sneImm (x : Reg) (kk : Byte) : Statement (.sneImm x kk) :=
  of_row ⟨6, 0x4000, 0xF000⟩ (by simp only [Instr.rowNumber]; decide) (selects_XKK (by decide))

theorem seReg (x y : Reg) : Statement (.seReg x y) :=
  of_row ⟨7, 0x5000, 0xF00F⟩ (by simp only [Instr.rowNumber]; decide) (selects_XY (by decide))

theorem sneReg (x y : Reg) : Statement (.sneReg x y) :=
  of_row ⟨8, 0x9000, 0xF00F⟩ (by simp only [Instr.rowNumber]; decide) (selects_XY (by decide))

theorem ldImm (x : Reg) (kk : Byte) : Statement (.ldImm x kk) :=
  of_row ⟨9, 0x6000, 0xF000⟩ (by simp only [Instr.rowNumber]; decide) (selects_XKK (by decide))

theorem addImm (x : Reg) (kk : Byte) : Statement (.addImm x kk) :=
  of_row ⟨10, 0x7000, 0xF000⟩ (by simp only [Instr.rowNumber]; decide) (selects_XKK (by decide))

theorem ldReg (x y : Reg) : Statement (.ldReg x y) :=
  of_row ⟨11, 0x8000, 0xF00F⟩ (by simp only [Instr.rowNumber]; decide) (selects_XY (by decide))

theorem orReg (x y : Reg) : Statement (.orReg x y) :=
  of_row ⟨12, 0x8001, 0xF00F⟩ (by simp only [Instr.rowNumber]; decide) (selects_XY (by decide))

theorem andReg (x y : Reg) : Statement (.andReg x y) :=
  of_row ⟨13, 0x8002, 0xF00F⟩ (by simp only [Instr.rowNumber]; decide) (selects_XY (by decide))

theorem xorReg (x y : Reg) : Statement (.xorReg x y) :=
  of_row ⟨14, 0x8003, 0xF00F⟩ (by simp only [Instr.rowNumber]; decide) (selects_XY (by decide))

theorem addReg (x y : Reg) : Statement (.addReg x y) :=
  of_row ⟨15, 0x8004, 0xF00F⟩ (by simp only [Instr.rowNumber]; decide) (selects_XY (by decide))

theorem subReg (x y : Reg) : Statement (.subReg x y) :=
  of_row ⟨16, 0x8005, 0xF00F⟩ (by simp only [Instr.rowNumber]; decide) (selects_XY (by decide))

theorem shr (x y : Reg) : Statement (.shr x y) :=
  of_row ⟨17, 0x8006, 0xF00F⟩ (by simp only [Instr.rowNumber]; decide) (selects_XY (by decide))

theorem subn (x y : Reg) : Statement (.subn x y) :=
  of_row ⟨18, 0x8007, 0xF00F⟩ (by simp only [Instr.rowNumber]; decide) (selects_XY (by decide))

theorem shl (x y : Reg) : Statement (.shl x y) :=
  of_row ⟨19, 0x800E, 0xF00F⟩ (by simp only [Instr.rowNumber]; decide) (selects_XY (by decide))

theorem ldI (nnn : Addr12) : Statement (.ldI nnn) :=
  of_row ⟨20, 0xA000, 0xF000⟩ (by simp only [Instr.rowNumber]; decide) (selects_NNN (by decide))

theorem jpV0 (nnn : Addr12) : Statement (.jpV0 nnn) :=
  of_row ⟨21, 0xB000, 0xF000⟩ (by simp only [Instr.rowNumber]; decide) (selects_NNN (by decide))

theorem rnd (x : Reg) (kk : Byte) : Statement (.rnd x kk) :=
  of_row ⟨22, 0xC000, 0xF000⟩ (by simp only [Instr.rowNumber]; decide) (selects_XKK (by decide))

theorem drw (x y : Reg) (n : Nibble) : Statement (.drw x y n) :=
  of_row ⟨23, 0xD000, 0xF000⟩ (by simp only [Instr.rowNumber]; decide) (selects_XYN (by decide))

theorem skp (x : Reg) : Statement (.skp x) :=
  of_row ⟨24, 0xE09E, 0xF0FF⟩ (by simp only [Instr.rowNumber]; decide) (selects_X (by decide))

theorem sknp (x : Reg) : Statement (.sknp x) :=
  of_row ⟨25, 0xE0A1, 0xF0FF⟩ (by simp only [Instr.rowNumber]; decide) (selects_X (by decide))

theorem ldVxDt (x : Reg) : Statement (.ldVxDt x) :=
  of_row ⟨26, 0xF007, 0xF0FF⟩ (by simp only [Instr.rowNumber]; decide) (selects_X (by decide))

theorem ldDtVx (x : Reg) : Statement (.ldDtVx x) :=
  of_row ⟨27, 0xF015, 0xF0FF⟩ (by simp only [Instr.rowNumber]; decide) (selects_X (by decide))

theorem ldStVx (x : Reg) : Statement (.ldStVx x) :=
  of_row ⟨28, 0xF018, 0xF0FF⟩ (by simp only [Instr.rowNumber]; decide) (selects_X (by decide))

theorem ldVxKey (x : Reg) : Statement (.ldVxKey x) :=
  of_row ⟨29, 0xF00A, 0xF0FF⟩ (by simp only [Instr.rowNumber]; decide) (selects_X (by decide))

theorem addI (x : Reg) : Statement (.addI x) :=
  of_row ⟨30, 0xF01E, 0xF0FF⟩ (by simp only [Instr.rowNumber]; decide) (selects_X (by decide))

theorem ldFont (x : Reg) : Statement (.ldFont x) :=
  of_row ⟨31, 0xF029, 0xF0FF⟩ (by simp only [Instr.rowNumber]; decide) (selects_X (by decide))

theorem ldBcd (x : Reg) : Statement (.ldBcd x) :=
  of_row ⟨32, 0xF033, 0xF0FF⟩ (by simp only [Instr.rowNumber]; decide) (selects_X (by decide))

theorem storeRegs (x : Reg) : Statement (.storeRegs x) :=
  of_row ⟨33, 0xF055, 0xF0FF⟩ (by simp only [Instr.rowNumber]; decide) (selects_X (by decide))

theorem loadRegs (x : Reg) : Statement (.loadRegs x) :=
  of_row ⟨34, 0xF065, 0xF0FF⟩ (by simp only [Instr.rowNumber]; decide) (selects_X (by decide))

/-- NOP comes from no row. -/
theorem nop (w : Word) : Statement (.nop w) := fun r hr hn =>
  absurd hn ((by decide : ∀ q ∈ opcodeRows, q.number ≠ 0) r hr)

end Sys2Proof.Laws.EncodeSelectsRow
end

