-- ==== Sys2Proof/Laws/State.lean ====
section
/-!
SUPPORT. One lemma per field per named update of the state, so that no later proof unfolds a record update.
-/
namespace Sys2Proof.Machine

@[simp] theorem State.setV_v (s : State) (r : Reg) (b : Byte) : (s.setV r b).v = s.v.set r b := rfl
@[simp] theorem State.setV_pc (s : State) (r : Reg) (b : Byte) : (s.setV r b).pc = s.pc := rfl
@[simp] theorem State.setV_i (s : State) (r : Reg) (b : Byte) : (s.setV r b).i = s.i := rfl
@[simp] theorem State.setV_stack (s : State) (r : Reg) (b : Byte) : (s.setV r b).stack = s.stack := rfl
@[simp] theorem State.setV_sp (s : State) (r : Reg) (b : Byte) : (s.setV r b).sp = s.sp := rfl
@[simp] theorem State.setV_dt (s : State) (r : Reg) (b : Byte) : (s.setV r b).dt = s.dt := rfl
@[simp] theorem State.setV_st (s : State) (r : Reg) (b : Byte) : (s.setV r b).st = s.st := rfl
@[simp] theorem State.setV_draw (s : State) (r : Reg) (b : Byte) : (s.setV r b).draw = s.draw := rfl
@[simp] theorem State.setV_mem (s : State) (r : Reg) (b : Byte) : (s.setV r b).mem = s.mem := rfl
@[simp] theorem State.setV_fb (s : State) (r : Reg) (b : Byte) : (s.setV r b).fb = s.fb := rfl
@[simp] theorem State.setV_inputs (s : State) (r : Reg) (b : Byte) : (s.setV r b).inputs = s.inputs := rfl
@[simp] theorem State.setV_pending (s : State) (r : Reg) (b : Byte) : (s.setV r b).pending = s.pending := rfl
@[simp] theorem State.setV_lastLoad (s : State) (r : Reg) (b : Byte) : (s.setV r b).lastLoad = s.lastLoad := rfl
@[simp] theorem State.setV_drawn (s : State) (r : Reg) (b : Byte) : (s.setV r b).drawn = s.drawn := rfl

@[simp] theorem State.setVF_v (s : State) (c : Bool) : (s.setVF c).v = s.v.set vF (flagByte c) := rfl
@[simp] theorem State.setVF_pc (s : State) (c : Bool) : (s.setVF c).pc = s.pc := rfl
@[simp] theorem State.setVF_i (s : State) (c : Bool) : (s.setVF c).i = s.i := rfl
@[simp] theorem State.setVF_stack (s : State) (c : Bool) : (s.setVF c).stack = s.stack := rfl
@[simp] theorem State.setVF_sp (s : State) (c : Bool) : (s.setVF c).sp = s.sp := rfl
@[simp] theorem State.setVF_dt (s : State) (c : Bool) : (s.setVF c).dt = s.dt := rfl
@[simp] theorem State.setVF_st (s : State) (c : Bool) : (s.setVF c).st = s.st := rfl
@[simp] theorem State.setVF_draw (s : State) (c : Bool) : (s.setVF c).draw = s.draw := rfl
@[simp] theorem State.setVF_mem (s : State) (c : Bool) : (s.setVF c).mem = s.mem := rfl
@[simp] theorem State.setVF_fb (s : State) (c : Bool) : (s.setVF c).fb = s.fb := rfl
@[simp] theorem State.setVF_inputs (s : State) (c : Bool) : (s.setVF c).inputs = s.inputs := rfl
@[simp] theorem State.setVF_pending (s : State) (c : Bool) : (s.setVF c).pending = s.pending := rfl
@[simp] theorem State.setVF_lastLoad (s : State) (c : Bool) : (s.setVF c).lastLoad = s.lastLoad := rfl
@[simp] theorem State.setVF_drawn (s : State) (c : Bool) : (s.setVF c).drawn = s.drawn := rfl

@[simp] theorem State.setVFlag_v (s : State) (x : Reg) (b : Byte) (c : Bool) : (s.setVFlag x b c).v = (s.v.set x b).set vF (flagByte c) := rfl
@[simp] theorem State.setVFlag_pc (s : State) (x : Reg) (b : Byte) (c : Bool) : (s.setVFlag x b c).pc = s.pc := rfl
@[simp] theorem State.setVFlag_i (s : State) (x : Reg) (b : Byte) (c : Bool) : (s.setVFlag x b c).i = s.i := rfl
@[simp] theorem State.setVFlag_stack (s : State) (x : Reg) (b : Byte) (c : Bool) : (s.setVFlag x b c).stack = s.stack := rfl
@[simp] theorem State.setVFlag_sp (s : State) (x : Reg) (b : Byte) (c : Bool) : (s.setVFlag x b c).sp = s.sp := rfl
@[simp] theorem State.setVFlag_dt (s : State) (x : Reg) (b : Byte) (c : Bool) : (s.setVFlag x b c).dt = s.dt := rfl
@[simp] theorem State.setVFlag_st (s : State) (x : Reg) (b : Byte) (c : Bool) : (s.setVFlag x b c).st = s.st := rfl
@[simp] theorem State.setVFlag_draw (s : State) (x : Reg) (b : Byte) (c : Bool) : (s.setVFlag x b c).draw = s.draw := rfl
@[simp] theorem State.setVFlag_mem (s : State) (x : Reg) (b : Byte) (c : Bool) : (s.setVFlag x b c).mem = s.mem := rfl
@[simp] theorem State.setVFlag_fb (s : State) (x : Reg) (b : Byte) (c : Bool) : (s.setVFlag x b c).fb = s.fb := rfl
@[simp] theorem State.setVFlag_inputs (s : State) (x : Reg) (b : Byte) (c : Bool) : (s.setVFlag x b c).inputs = s.inputs := rfl
@[simp] theorem State.setVFlag_pending (s : State) (x : Reg) (b : Byte) (c : Bool) : (s.setVFlag x b c).pending = s.pending := rfl
@[simp] theorem State.setVFlag_lastLoad (s : State) (x : Reg) (b : Byte) (c : Bool) : (s.setVFlag x b c).lastLoad = s.lastLoad := rfl
@[simp] theorem State.setVFlag_drawn (s : State) (x : Reg) (b : Byte) (c : Bool) : (s.setVFlag x b c).drawn = s.drawn := rfl

@[simp] theorem State.advance_v (s : State) : (s.advance).v = s.v := rfl
@[simp] theorem State.advance_pc (s : State) : (s.advance).pc = s.pc + 2 := rfl
@[simp] theorem State.advance_i (s : State) : (s.advance).i = s.i := rfl
@[simp] theorem State.advance_stack (s : State) : (s.advance).stack = s.stack := rfl
@[simp] theorem State.advance_sp (s : State) : (s.advance).sp = s.sp := rfl
@[simp] theorem State.advance_dt (s : State) : (s.advance).dt = s.dt := rfl
@[simp] theorem State.advance_st (s : State) : (s.advance).st = s.st := rfl
@[simp] theorem State.advance_draw (s : State) : (s.advance).draw = s.draw := rfl
@[simp] theorem State.advance_mem (s : State) : (s.advance).mem = s.mem := rfl
@[simp] theorem State.advance_fb (s : State) : (s.advance).fb = s.fb := rfl
@[simp] theorem State.advance_inputs (s : State) : (s.advance).inputs = s.inputs := rfl
@[simp] theorem State.advance_pending (s : State) : (s.advance).pending = s.pending := rfl
@[simp] theorem State.advance_lastLoad (s : State) : (s.advance).lastLoad = s.lastLoad := rfl
@[simp] theorem State.advance_drawn (s : State) : (s.advance).drawn = s.drawn := rfl

@[simp] theorem State.skipIf_v (s : State) (c : Bool) : (s.skipIf c).v = s.v := rfl
@[simp] theorem State.skipIf_pc (s : State) (c : Bool) : (s.skipIf c).pc = if c then s.pc + 4 else s.pc + 2 := rfl
@[simp] theorem State.skipIf_i (s : State) (c : Bool) : (s.skipIf c).i = s.i := rfl
@[simp] theorem State.skipIf_stack (s : State) (c : Bool) : (s.skipIf c).stack = s.stack := rfl
@[simp] theorem State.skipIf_sp (s : State) (c : Bool) : (s.skipIf c).sp = s.sp := rfl
@[simp] theorem State.skipIf_dt (s : State) (c : Bool) : (s.skipIf c).dt = s.dt := rfl
@[simp] theorem State.skipIf_st (s : State) (c : Bool) : (s.skipIf c).st = s.st := rfl
@[simp] theorem State.skipIf_draw (s : State) (c : Bool) : (s.skipIf c).draw = s.draw := rfl
@[simp] theorem State.skipIf_mem (s : State) (c : Bool) : (s.skipIf c).mem = s.mem := rfl
@[simp] theorem State.skipIf_fb (s : State) (c : Bool) : (s.skipIf c).fb = s.fb := rfl
@[simp] theorem State.skipIf_inputs (s : State) (c : Bool) : (s.skipIf c).inputs = s.inputs := rfl
@[simp] theorem State.skipIf_pending (s : State) (c : Bool) : (s.skipIf c).pending = s.pending := rfl
@[simp] theorem State.skipIf_lastLoad (s : State) (c : Bool) : (s.skipIf c).lastLoad = s.lastLoad := rfl
@[simp] theorem State.skipIf_drawn (s : State) (c : Bool) : (s.skipIf c).drawn = s.drawn := rfl

@[simp] theorem State.jumpTo_v (s : State) (w : Word) : (s.jumpTo w).v = s.v := rfl
@[simp] theorem State.jumpTo_pc (s : State) (w : Word) : (s.jumpTo w).pc = w := rfl
@[simp] theorem State.jumpTo_i (s : State) (w : Word) : (s.jumpTo w).i = s.i := rfl
@[simp] theorem State.jumpTo_stack (s : State) (w : Word) : (s.jumpTo w).stack = s.stack := rfl
@[simp] theorem State.jumpTo_sp (s : State) (w : Word) : (s.jumpTo w).sp = s.sp := rfl
@[simp] theorem State.jumpTo_dt (s : State) (w : Word) : (s.jumpTo w).dt = s.dt := rfl
@[simp] theorem State.jumpTo_st (s : State) (w : Word) : (s.jumpTo w).st = s.st := rfl
@[simp] theorem State.jumpTo_draw (s : State) (w : Word) : (s.jumpTo w).draw = s.draw := rfl
@[simp] theorem State.jumpTo_mem (s : State) (w : Word) : (s.jumpTo w).mem = s.mem := rfl
@[simp] theorem State.jumpTo_fb (s : State) (w : Word) : (s.jumpTo w).fb = s.fb := rfl
@[simp] theorem State.jumpTo_inputs (s : State) (w : Word) : (s.jumpTo w).inputs = s.inputs := rfl
@[simp] theorem State.jumpTo_pending (s : State) (w : Word) : (s.jumpTo w).pending = s.pending := rfl
@[simp] theorem State.jumpTo_lastLoad (s : State) (w : Word) : (s.jumpTo w).lastLoad = s.lastLoad := rfl
@[simp] theorem State.jumpTo_drawn (s : State) (w : Word) : (s.jumpTo w).drawn = s.drawn := rfl

@[simp] theorem State.pushPc_v (s : State) : (s.pushPc).v = s.v := by unfold State.pushPc; split <;> rfl
@[simp] theorem State.pushPc_pc (s : State) : (s.pushPc).pc = s.pc := by unfold State.pushPc; split <;> rfl
@[simp] theorem State.pushPc_i (s : State) : (s.pushPc).i = s.i := by unfold State.pushPc; split <;> rfl
@[simp] theorem State.pushPc_dt (s : State) : (s.pushPc).dt = s.dt := by unfold State.pushPc; split <;> rfl
@[simp] theorem State.pushPc_st (s : State) : (s.pushPc).st = s.st := by unfold State.pushPc; split <;> rfl
@[simp] theorem State.pushPc_draw (s : State) : (s.pushPc).draw = s.draw := by unfold State.pushPc; split <;> rfl
@[simp] theorem State.pushPc_mem (s : State) : (s.pushPc).mem = s.mem := by unfold State.pushPc; split <;> rfl
@[simp] theorem State.pushPc_fb (s : State) : (s.pushPc).fb = s.fb := by unfold State.pushPc; split <;> rfl
@[simp] theorem State.pushPc_inputs (s : State) : (s.pushPc).inputs = s.inputs := by unfold State.pushPc; split <;> rfl
@[simp] theorem State.pushPc_pending (s : State) : (s.pushPc).pending = s.pending := by unfold State.pushPc; split <;> rfl
@[simp] theorem State.pushPc_lastLoad (s : State) : (s.pushPc).lastLoad = s.lastLoad := by unfold State.pushPc; split <;> rfl
@[simp] theorem State.pushPc_drawn (s : State) : (s.pushPc).drawn = s.drawn := by unfold State.pushPc; split <;> rfl

@[simp] theorem State.popPc_v (s : State) : (s.popPc).v = s.v := by unfold State.popPc; split <;> rfl
@[simp] theorem State.popPc_i (s : State) : (s.popPc).i = s.i := by unfold State.popPc; split <;> rfl
@[simp] theorem State.popPc_stack (s : State) : (s.popPc).stack = s.stack := by unfold State.popPc; split <;> rfl
@[simp] theorem State.popPc_dt (s : State) : (s.popPc).dt = s.dt := by unfold State.popPc; split <;> rfl
@[simp] theorem State.popPc_st (s : State) : (s.popPc).st = s.st := by unfold State.popPc; split <;> rfl
@[simp] theorem State.popPc_draw (s : State) : (s.popPc).draw = s.draw := by unfold State.popPc; split <;> rfl
@[simp] theorem State.popPc_mem (s : State) : (s.popPc).mem = s.mem := by unfold State.popPc; split <;> rfl
@[simp] theorem State.popPc_fb (s : State) : (s.popPc).fb = s.fb := by unfold State.popPc; split <;> rfl
@[simp] theorem State.popPc_inputs (s : State) : (s.popPc).inputs = s.inputs := by unfold State.popPc; split <;> rfl
@[simp] theorem State.popPc_pending (s : State) : (s.popPc).pending = s.pending := by unfold State.popPc; split <;> rfl
@[simp] theorem State.popPc_lastLoad (s : State) : (s.popPc).lastLoad = s.lastLoad := by unfold State.popPc; split <;> rfl
@[simp] theorem State.popPc_drawn (s : State) : (s.popPc).drawn = s.drawn := by unfold State.popPc; split <;> rfl

@[simp] theorem State.timerTick_v (s : State) : (s.timerTick).v = s.v := rfl
@[simp] theorem State.timerTick_pc (s : State) : (s.timerTick).pc = s.pc := rfl
@[simp] theorem State.timerTick_i (s : State) : (s.timerTick).i = s.i := rfl
@[simp] theorem State.timerTick_stack (s : State) : (s.timerTick).stack = s.stack := rfl
@[simp] theorem State.timerTick_sp (s : State) : (s.timerTick).sp = s.sp := rfl
@[simp] theorem State.timerTick_dt (s : State) : (s.timerTick).dt = tickDown s.dt := rfl
@[simp] theorem State.timerTick_st (s : State) : (s.timerTick).st = tickDown s.st := rfl
@[simp] theorem State.timerTick_draw (s : State) : (s.timerTick).draw = s.draw := rfl
@[simp] theorem State.timerTick_mem (s : State) : (s.timerTick).mem = s.mem := rfl
@[simp] theorem State.timerTick_fb (s : State) : (s.timerTick).fb = s.fb := rfl
@[simp] theorem State.timerTick_inputs (s : State) : (s.timerTick).inputs = s.inputs := rfl
@[simp] theorem State.timerTick_pending (s : State) : (s.timerTick).pending = s.pending := rfl
@[simp] theorem State.timerTick_lastLoad (s : State) : (s.timerTick).lastLoad = s.lastLoad := rfl
@[simp] theorem State.timerTick_drawn (s : State) : (s.timerTick).drawn = s.drawn := rfl

@[simp] theorem State.drawAck_v (s : State) : (s.drawAck).v = s.v := rfl
@[simp] theorem State.drawAck_pc (s : State) : (s.drawAck).pc = s.pc := rfl
@[simp] theorem State.drawAck_i (s : State) : (s.drawAck).i = s.i := rfl
@[simp] theorem State.drawAck_stack (s : State) : (s.drawAck).stack = s.stack := rfl
@[simp] theorem State.drawAck_sp (s : State) : (s.drawAck).sp = s.sp := rfl
@[simp] theorem State.drawAck_dt (s : State) : (s.drawAck).dt = s.dt := rfl
@[simp] theorem State.drawAck_st (s : State) : (s.drawAck).st = s.st := rfl
@[simp] theorem State.drawAck_draw (s : State) : (s.drawAck).draw = false := rfl
@[simp] theorem State.drawAck_mem (s : State) : (s.drawAck).mem = s.mem := rfl
@[simp] theorem State.drawAck_fb (s : State) : (s.drawAck).fb = s.fb := rfl
@[simp] theorem State.drawAck_inputs (s : State) : (s.drawAck).inputs = s.inputs := rfl
@[simp] theorem State.drawAck_pending (s : State) : (s.drawAck).pending = s.pending := rfl
@[simp] theorem State.drawAck_lastLoad (s : State) : (s.drawAck).lastLoad = s.lastLoad := rfl
@[simp] theorem State.drawAck_drawn (s : State) : (s.drawAck).drawn = s.drawn := rfl

@[simp] theorem State.resetEvent_v (s : State) : (s.resetEvent).v = State.reset.v := rfl
@[simp] theorem State.resetEvent_pc (s : State) : (s.resetEvent).pc = State.reset.pc := rfl
@[simp] theorem State.resetEvent_i (s : State) : (s.resetEvent).i = State.reset.i := rfl
@[simp] theorem State.resetEvent_stack (s : State) : (s.resetEvent).stack = State.reset.stack := rfl
@[simp] theorem State.resetEvent_sp (s : State) : (s.resetEvent).sp = State.reset.sp := rfl
@[simp] theorem State.resetEvent_dt (s : State) : (s.resetEvent).dt = State.reset.dt := rfl
@[simp] theorem State.resetEvent_st (s : State) : (s.resetEvent).st = State.reset.st := rfl
@[simp] theorem State.resetEvent_draw (s : State) : (s.resetEvent).draw = State.reset.draw := rfl
@[simp] theorem State.resetEvent_mem (s : State) : (s.resetEvent).mem = State.reset.mem := rfl
@[simp] theorem State.resetEvent_fb (s : State) : (s.resetEvent).fb = State.reset.fb := rfl
@[simp] theorem State.resetEvent_inputs (s : State) : (s.resetEvent).inputs = s.inputs := rfl
@[simp] theorem State.resetEvent_pending (s : State) : (s.resetEvent).pending = s.pending := rfl
@[simp] theorem State.resetEvent_lastLoad (s : State) : (s.resetEvent).lastLoad = s.lastLoad := rfl
@[simp] theorem State.resetEvent_drawn (s : State) : (s.resetEvent).drawn = s.drawn := rfl

@[simp] theorem State.freshInputs_v (s : State) : (s.freshInputs).v = s.v := rfl
@[simp] theorem State.freshInputs_pc (s : State) : (s.freshInputs).pc = s.pc := rfl
@[simp] theorem State.freshInputs_i (s : State) : (s.freshInputs).i = s.i := rfl
@[simp] theorem State.freshInputs_stack (s : State) : (s.freshInputs).stack = s.stack := rfl
@[simp] theorem State.freshInputs_sp (s : State) : (s.freshInputs).sp = s.sp := rfl
@[simp] theorem State.freshInputs_dt (s : State) : (s.freshInputs).dt = s.dt := rfl
@[simp] theorem State.freshInputs_st (s : State) : (s.freshInputs).st = s.st := rfl
@[simp] theorem State.freshInputs_draw (s : State) : (s.freshInputs).draw = s.draw := rfl
@[simp] theorem State.freshInputs_mem (s : State) : (s.freshInputs).mem = s.mem := rfl
@[simp] theorem State.freshInputs_fb (s : State) : (s.freshInputs).fb = s.fb := rfl
@[simp] theorem State.freshInputs_pending (s : State) : (s.freshInputs).pending = s.pending := rfl
@[simp] theorem State.freshInputs_lastLoad (s : State) : (s.freshInputs).lastLoad = s.lastLoad := rfl
@[simp] theorem State.freshInputs_drawn (s : State) : (s.freshInputs).drawn = s.drawn + 1 := rfl

end Sys2Proof.Machine
end

