-- ==== Sys2Proof/Laws/Registers.lean ====
section
/-!
SUPPORT. What each register operation does, through the register read (spec R20, R161, R194, R195), the stack
(R24, R140, R142) and the flag values.
-/
namespace Sys2Proof.Machine

@[simp] theorem getV_setV_same (s : State) (r : Reg) (b : Byte) : (s.setV r b).getV r = b := by
  simp [State.getV]

theorem getV_setV_of_ne (s : State) {r q : Reg} (b : Byte) (h : q ≠ r) : (s.setV r b).getV q = s.getV q := by
  have h' : r.val ≠ q.val := fun e => h (Fin.ext e.symm)
  simp [State.getV, h']

theorem getV_setV (s : State) (r q : Reg) (b : Byte) :
    (s.setV r b).getV q = if q = r then b else s.getV q := by
  split
  · rename_i h; subst h; simp
  · rename_i h; exact getV_setV_of_ne s b h

theorem getV_setVF (s : State) (c : Bool) (q : Reg) :
    (s.setVF c).getV q = if q = vF then flagByte c else s.getV q := getV_setV s vF q (flagByte c)

/-- Result first, flag last: VF holds the flag whatever X is (R161). -/
theorem getV_setVFlag (s : State) (x q : Reg) (b : Byte) (c : Bool) :
    (s.setVFlag x b c).getV q = if q = vF then flagByte c else if q = x then b else s.getV q := by
  simp only [State.setVFlag, getV_setVF, getV_setV]

@[simp] theorem getV_advance (s : State) (q : Reg) : s.advance.getV q = s.getV q := rfl
@[simp] theorem getV_skipIf (s : State) (c : Bool) (q : Reg) : (s.skipIf c).getV q = s.getV q := rfl
@[simp] theorem getV_jumpTo (s : State) (w : Word) (q : Reg) : (s.jumpTo w).getV q = s.getV q := rfl
@[simp] theorem getV_pushPc (s : State) (q : Reg) : s.pushPc.getV q = s.getV q := by simp [State.getV]
@[simp] theorem getV_popPc (s : State) (q : Reg) : s.popPc.getV q = s.getV q := by simp [State.getV]

@[simp] theorem flagByte_true : flagByte true = 1 := rfl
@[simp] theorem flagByte_false : flagByte false = 0 := rfl

theorem flagByte_toNat (c : Bool) : (flagByte c).toNat = if c then 1 else 0 := by cases c <;> rfl

/-- NEXT as a number (R10, R22). -/
theorem word_add_two_toNat (w : Word) : (w + 2).toNat = (w.toNat + 2) % 2 ^ 16 := by simp [BitVec.toNat_add]

/-- SKIP as a number (R10). -/
theorem word_add_four_toNat (w : Word) : (w + 4).toNat = (w.toNat + 4) % 2 ^ 16 := by simp [BitVec.toNat_add]

/-- A widened address field is the same number (R93). -/
@[simp] theorem addrOf_toNat (nnn : Addr12) : (addrOf nnn).toNat = nnn.toNat := by
  have := nnn.isLt
  simp [addrOf]; omega

/-- A widened byte is the same number (R9, R93). -/
@[simp] theorem byteToWord_toNat (b : Byte) : (byteToWord b).toNat = b.toNat := by
  have := b.isLt
  simp [byteToWord]; omega

/-- The registers after a block load (R195). -/
theorem loadBlock_getElem (m : Memory) (a n : Nat) (v : Vector Byte 16) (k : Nat) (hk : k < 16) :
    (loadBlock m a n v)[k] = if k < n then memRead m (a + k) else v[k] := by
  induction n with
  | zero => simp [loadBlock]
  | succ n ih =>
    simp only [loadBlock, Vector.getElem_setIfInBounds, ih]
    by_cases h : n = k
    · subst h; simp
    · rw [if_neg h]
      by_cases hlt : k < n
      · rw [if_pos hlt, if_pos (by omega)]
      · rw [if_neg hlt, if_neg (by omega)]

/-- The block V0 to VX has X + 1 bytes (R194). -/
@[simp] theorem block_length (s : State) (x : Reg) : (s.block x).length = x.val + 1 := by
  simp [State.block]

/-- Byte `k` of the block is register `k` (R194). -/
theorem block_getD (s : State) (x : Reg) (k : Reg) (h : k ≤ x) : (s.block x).getD k 0 = s.getV k := by
  have h2 : k.val < x.val + 1 := Nat.lt_succ_of_le h
  simp [State.block, State.getV, List.getD_eq_getElem?_getD, h2]

/-- A push with room: PC on the next free entry, SP one more (R142). -/
theorem pushPc_of_lt (s : State) (h : s.sp.toNat < 16) :
    s.pushPc.sp.toNat = s.sp.toNat + 1 ∧
      ∀ k : Fin 16, s.pushPc.stack[k] = if k.val = s.sp.toNat then s.pc else s.stack[k] := by
  unfold State.pushPc
  rw [dif_pos h]
  refine ⟨?_, fun k => ?_⟩
  · simp [BitVec.toNat_add]; omega
  · simp only [Fin.getElem_fin, Vector.getElem_set, eq_comm]

/-- A push without room changes nothing (R142). -/
theorem pushPc_of_ge (s : State) (h : 16 ≤ s.sp.toNat) : s.pushPc = s := by
  unfold State.pushPc
  rw [dif_neg (by simp only [Config.stackDepth]; omega)]

/-- A pop with entries in use (R140). -/
theorem popPc_of_pos (s : State) (h : 0 < s.sp.toNat) :
    s.popPc.sp.toNat = s.sp.toNat - 1 ∧ s.popPc.pc = s.stackEntry (s.sp.toNat - 1) + 2 := by
  have hne : s.sp ≠ 0 := by intro e; simp [e] at h
  have hlt := s.sp.isLt
  have hsub : (s.sp - 1).toNat = s.sp.toNat - 1 := by
    rw [BitVec.toNat_sub]; simp; omega
  unfold State.popPc
  rw [if_neg hne]
  exact ⟨hsub, by rw [hsub]⟩

/-- A pop with no entry in use is the default advance (R140). -/
theorem popPc_of_zero (s : State) (h : s.sp.toNat = 0) : s.popPc = s.advance := by
  have he : s.sp = 0 := BitVec.eq_of_toNat_eq (by simpa using h)
  unfold State.popPc
  rw [if_pos he]

/-- An entry of the stack that exists (R24). -/
theorem stackEntry_of_lt (s : State) {n : Nat} (h : n < 16) : s.stackEntry n = s.stack[n] := by
  unfold State.stackEntry; rw [dif_pos h]

end Sys2Proof.Machine
end

