-- ==== Sys2Proof/Laws/Step.lean ====
section
/-!
SUPPORT. What a step does, event by event (spec R6, R120, R121), and that the events keep memory canonical.
-/
namespace Sys2Proof.Machine

@[simp] theorem onNext_next (f : State → State) (s : State) : onNext f (.next s) = .next (f s) := rfl

/-- With nothing queued the step is a Cycle. -/
theorem step_of_nil {s : State} (h : s.pending = []) : step s = cycleEvent s := by unfold step runNext; rw [h]

/-- Otherwise the step is the queued event. -/
theorem step_of_cons {s : State} {e : Event} {rest : List Event} (h : s.pending = e :: rest) :
    step s = runEvent e { s with pending := rest } := by unfold step runNext; rw [h]

/-- A paused Cycle changes nothing but the model's own inputs (R121). -/
theorem cycleEvent_of_paused {s : State} (h : s.inputs.paused = true) : cycleEvent s = .next s.freshInputs := by
  unfold cycleEvent cycle; rw [if_pos h]; rfl

/-- A Cycle that is not paused executes the instruction at PC (R120). -/
theorem cycleEvent_of_running {s : State} (h : s.inputs.paused = false) :
    cycleEvent s = onNext State.freshInputs (exec s.fetched s) := by
  unfold cycleEvent cycle; rw [if_neg (by simp [h])]

/-- A ROM that fits (R282). -/
theorem loadRom_of_le {s : State} {bytes : List Byte} (h : bytes.length ≤ 3584) :
    s.loadRom bytes = ({ s.resetEvent with mem := memWriteBytes s.resetEvent.mem Config.progBase bytes }, .ok) := by
  unfold State.loadRom; rw [if_neg (by simp only [Config.maxRom]; omega)]

/-- A ROM that is too long is refused (R282). -/
theorem loadRom_of_gt {s : State} {bytes : List Byte} (h : 3584 < bytes.length) :
    s.loadRom bytes = (s, .oversizeRom) := by
  unfold State.loadRom; rw [if_pos h]

/-- Reset leaves canonical memory: nothing is listed. -/
theorem resetEvent_wf (s : State) : Memory.wf s.resetEvent.mem = true := rfl

/-- LoadRom keeps memory canonical. -/
theorem loadRomEvent_wf {s : State} (bytes : List Byte) (h : Memory.wf s.mem = true) :
    Memory.wf (s.loadRomEvent bytes).mem = true := by
  unfold State.loadRomEvent
  by_cases hb : bytes.length ≤ 3584
  · rw [loadRom_of_le hb]; exact memWriteBytes_wf _ _ (resetEvent_wf s)
  · rw [loadRom_of_gt (by omega)]; exact h

end Sys2Proof.Machine
end

