-- ==== Sys2Proof/Tests/Slice0.lean ====
section
/-!
SUPPORT. Small tests of one step each, with the expected values of 95_test_vectors.md (its vector numbers stand in the
comments), the decoding of words written out from the patterns of R95, the smoke test of `WellFormed`, and a witness for
the hypotheses of each statement that has some.
-/
namespace Sys2Proof.Tests
open Sys2Proof Sys2Proof.Machine

/-! ### Helpers -/

/-- The state after one step, where there is one. -/
def after (s : State) : Option State :=
  match step s with
  | .next t => some t
  | .fault _ => none
  | .refused _ => none

/-- The start state of the vectors with the draw flag low: the reset state, not paused, all keys up, RND = 0x00. -/
def base : State := { State.reset with draw := false, inputs := { paused := false, keys := 0, rnd := 0 } }

/-- The state with the word `w` at PC. -/
def withWord (w : Word) (s : State) : State := s.placeWord w

/-- The state with bytes at an address. -/
def withBytes (a : Nat) (bs : List Byte) (s : State) : State := { s with mem := memWriteBytes s.mem a bs }

/-- The state with keys down. -/
def withKeys (k : BitVec 16) (s : State) : State := { s with inputs := { s.inputs with keys := k } }

/-- The cells at some places. -/
def cells (ps : List (Fin 64 × Fin 32)) (s : State) : List Bool := ps.map fun p => s.fb.cell p.1 p.2

/-! ### WellFormed: the one check is that a NOP's word is reserved (R96) -/

theorem test_wf_refuses_nop_of_cls : Instr.wellFormed (.nop 0x00E0) = false := by decide
theorem test_wf_refuses_nop_of_jp : Instr.wellFormed (.nop 0x1234) = false := by decide
theorem test_wf_refuses_nop_of_se : Instr.wellFormed (.nop 0x5120) = false := by decide
theorem test_wf_refuses_nop_of_alu : Instr.wellFormed (.nop 0x812E) = false := by decide
theorem test_wf_refuses_nop_of_sne : Instr.wellFormed (.nop 0x9AB0) = false := by decide
theorem test_wf_refuses_nop_of_skp : Instr.wellFormed (.nop 0xE19E) = false := by decide
theorem test_wf_refuses_nop_of_load : Instr.wellFormed (.nop 0xF165) = false := by decide
theorem test_wf_admits_each_reserved_region :
    ([0x0000, 0x0123, 0x5121, 0x8128, 0x812F, 0x9AB1, 0xE19F, 0xF000] : List Word).all
      (fun w => Instr.wellFormed (.nop w)) = true := by decide

/-! ### Decoding, from the patterns of R95 bit by bit: class, X, Y, N -/

theorem test_decode_fixed : decode 0b0000000011100000 = .cls ∧ decode 0b0000000011101110 = .ret := by decide
theorem test_decode_nnn : decode 0b0001001000110100 = .jp 0x234 ∧ decode 0b0010001000001010 = .call 0x20A ∧
    decode 0b1010001100000000 = .ldI 0x300 ∧ decode 0b1011111111111111 = .jpV0 0xFFF := by decide
theorem test_decode_xkk : decode 0b0011000100000000 = .seImm 1 0x00 ∧ decode 0b0100001000010001 = .sneImm 2 0x11 ∧
    decode 0b0110000100000101 = .ldImm 1 0x05 ∧ decode 0b0111000000000001 = .addImm 0 0x01 ∧
    decode 0b1100001000001111 = .rnd 2 0x0F := by decide
theorem test_decode_xy_compare : decode 0b0101000100100000 = .seReg 1 2 ∧
    decode 0b1001101010110000 = .sneReg 10 11 := by decide
theorem test_decode_xy_move_logic : decode 0b1000000100100000 = .ldReg 1 2 ∧ decode 0b1000000100100001 = .orReg 1 2 ∧
    decode 0b1000000100100010 = .andReg 1 2 ∧ decode 0b1000000100100011 = .xorReg 1 2 := by decide
theorem test_decode_xy_arithmetic : decode 0b1000000100100100 = .addReg 1 2 ∧
    decode 0b1000000100100101 = .subReg 1 2 ∧ decode 0b1000000100100110 = .shr 1 2 ∧
    decode 0b1000000100100111 = .subn 1 2 ∧ decode 0b1000000100101110 = .shl 1 2 := by decide
theorem test_decode_xyn : decode 0b1101000000010010 = .drw 0 1 2 ∧ decode 0xD000 = .drw 0 0 0 := by decide
theorem test_decode_keys : decode 0b1110000110011110 = .skp 1 ∧ decode 0b1110000110100001 = .sknp 1 ∧
    decode 0b1111000100001010 = .ldVxKey 1 := by decide
theorem test_decode_timers : decode 0b1111001000000111 = .ldVxDt 2 ∧ decode 0b1111001000010101 = .ldDtVx 2 ∧
    decode 0b1111001000011000 = .ldStVx 2 := by decide
theorem test_decode_index : decode 0b1111001000011110 = .addI 2 ∧ decode 0b1111001000101001 = .ldFont 2 ∧
    decode 0b1111001100110011 = .ldBcd 3 ∧ decode 0b1111000101010101 = .storeRegs 1 ∧
    decode 0b1111111101100101 = .loadRegs 15 := by decide
/-- E1, E3, E5 to E8, E11, E13, E15, E18, E21, E22. -/
theorem test_decode_nop :
    ([0x0000, 0x00E1, 0x00EF, 0x01E0, 0x0123, 0x00FB, 0x00FF, 0x5121, 0x512F, 0x9AB1, 0x8128, 0x812D, 0x812F] ++
      [0xE19F, 0xE1A0, 0xE100, 0xF000, 0xF1FF, 0xF030, 0xF075, 0xF085, 0xF002, 0xF090] : List Word).all
      (fun w => decode w == .nop w) = true := by decide
theorem test_decode_truncated : decodeBytes [0x12] = .error .truncated := by decide
theorem test_decode_table_word : decodeTableWord 16 0xA300 = some (.ldI 0x300) := by decide
theorem test_rows_are_disjoint : opcodeRows.Pairwise (fun p q => p.value &&& q.mask &&& p.mask ≠ q.value &&& p.mask &&& q.mask) := by
  decide

/-! ### Fetch and NOP (X1 to X4, X6, X9, X10) -/

theorem test_fetch_at_the_top : (after (withBytes 0xFFE [0x12, 0x34] { base with pc := 0xFFE })).map State.pc = some 0x234 := by
  decide
theorem test_fetch_pair_guard : (after (withBytes 0xFFE [0x12, 0x34] { base with pc := 0xFFF })).map State.pc = some 0x1001 := by
  decide
theorem test_pc_wraps : (after { base with pc := 0xFFFE }).map State.pc = some 0 := by decide
theorem test_odd_pc : (after (withWord 0x1208 { base with pc := 0x201 })).map State.pc = some 0x208 := by decide
theorem test_font_word_is_nop : (after { base with pc := 0 }).map State.pc = some 2 := by decide
theorem test_paused : (after { base with inputs := { base.inputs with paused := true } }).map State.pc = some 0x200 := by
  decide

/-! ### Control transfer (F1, F2, F4, F6, F7, F9 to F14, F16 to F18, F20, F21) -/

theorem test_ret : (after (withWord 0x00EE { base with pc := 0x20C, sp := 1, stack := base.stack.set 0 0x204 })).map
    (fun t => (t.sp, t.pc, t.stack[0])) = some (0, 0x206, 0x204) := by decide
theorem test_ret_underflow : (after (withWord 0x00EE { base with pc := 0x300 })).map (fun t => (t.sp, t.pc)) = some (0, 0x302) := by
  decide
theorem test_jp : (after (withWord 0x1204 { base with pc := 0x20A })).map State.pc = some 0x204 := by decide
theorem test_call : (after (withWord 0x220A { base with pc := 0x204 })).map (fun t => (t.stack[0], t.sp, t.pc)) =
    some (0x204, 1, 0x20A) := by decide
theorem test_call_overflow : (after (withWord 0x220A { base with pc := 0x204, sp := 16, stack := base.stack.set 15 0x111 })).map
    (fun t => (t.stack[15], t.sp, t.pc)) = some (0x111, 16, 0x20A) := by decide
theorem test_se_imm : (after (withWord 0x3100 base)).map State.pc = some 0x204 := by decide
theorem test_se_imm_not : (after (withWord 0x3100 (base.setV 1 4))).map State.pc = some 0x202 := by decide
theorem test_sne_imm : (after (withWord 0x4211 (base.setV 2 0x10))).map State.pc = some 0x204 := by decide
theorem test_sne_imm_not : (after (withWord 0x4210 (base.setV 2 0x10))).map State.pc = some 0x202 := by decide
theorem test_se_reg : (after (withWord 0x5010 ((base.setV 0 7).setV 1 7))).map State.pc = some 0x204 := by decide
theorem test_se_reg_not : (after (withWord 0x5010 ((base.setV 0 7).setV 1 8))).map State.pc = some 0x202 := by decide
theorem test_sne_reg : (after (withWord 0x9010 ((base.setV 0 7).setV 1 8))).map State.pc = some 0x204 := by decide
theorem test_sne_reg_same : (after (withWord 0x9AA0 (base.setV 10 3))).map State.pc = some 0x202 := by decide
theorem test_jp_v0_not_reduced : (after (withWord 0xBFFF (base.setV 0 0xFF))).map State.pc = some 0x10FE := by decide
theorem test_jp_v0_not_vx : (after (withWord 0xB300 (base.setV 3 9))).map State.pc = some 0x300 := by decide

/-! ### Load, arithmetic, logic, shift, random (A1 to A35) -/

theorem test_ld_imm : (after (withWord 0x6105 base)).map (fun t => (t.getV 1, t.pc)) = some (5, 0x202) := by decide
theorem test_add_imm_no_flag : (after (withWord 0x7001 ((base.setV 0 0xFF).setV 15 0x55))).map
    (fun t => (t.getV 0, t.getV 15)) = some (0, 0x55) := by decide
theorem test_ld_reg : (after (withWord 0x8120 (base.setV 2 0x3C))).map (fun t => t.getV 1) = some 0x3C := by decide
theorem test_or : (after (withWord 0x8011 (((base.setV 0 0xF0).setV 1 0x0F).setV 15 0x55))).map
    (fun t => (t.getV 0, t.getV 15)) = some (0xFF, 0x55) := by decide
theorem test_and : (after (withWord 0x8012 (((base.setV 0 0xF0).setV 1 0x3C).setV 15 0x55))).map
    (fun t => (t.getV 0, t.getV 15)) = some (0x30, 0x55) := by decide
theorem test_xor : (after (withWord 0x8013 (((base.setV 0 0xF0).setV 1 0x3C).setV 15 0x55))).map
    (fun t => (t.getV 0, t.getV 15)) = some (0xCC, 0x55) := by decide
theorem test_add_carry : (after (withWord 0x8014 ((base.setV 0 0xFF).setV 1 1))).map
    (fun t => (t.getV 0, t.getV 15)) = some (0, 1) := by decide
theorem test_add_into_vf : (after (withWord 0x8F14 ((base.setV 15 3).setV 1 2))).map (fun t => t.getV 15) = some 0 := by decide
theorem test_sub_borrow : (after (withWord 0x8015 ((base.setV 0 3).setV 1 5))).map
    (fun t => (t.getV 0, t.getV 15)) = some (0xFE, 0) := by decide
theorem test_sub_equal : (after (withWord 0x8015 ((base.setV 0 7).setV 1 7))).map
    (fun t => (t.getV 0, t.getV 15)) = some (0, 1) := by decide
theorem test_shr_ignores_vy : (after (withWord 0x8356 ((base.setV 3 0xFF).setV 5 0x10))).map
    (fun t => (t.getV 3, t.getV 5, t.getV 15)) = some (0x7F, 0x10, 1) := by decide
theorem test_shr_vf : (after (withWord 0x8F06 (base.setV 15 2))).map (fun t => t.getV 15) = some 0 := by decide
theorem test_subn : (after (withWord 0x8017 ((base.setV 0 3).setV 1 5))).map
    (fun t => (t.getV 0, t.getV 1, t.getV 15)) = some (2, 5, 1) := by decide
theorem test_subn_borrow : (after (withWord 0x8017 ((base.setV 0 5).setV 1 3))).map
    (fun t => (t.getV 0, t.getV 15)) = some (0xFE, 0) := by decide
theorem test_shl : (after (withWord 0x830E (base.setV 3 0x81))).map (fun t => (t.getV 3, t.getV 15)) = some (2, 1) := by decide
theorem test_shl_vf : (after (withWord 0x8F0E (base.setV 15 0x7F))).map (fun t => t.getV 15) = some 0 := by decide
theorem test_rnd : (after (withWord 0xC20F { base with inputs := { base.inputs with rnd := 0xA7 } })).map
    (fun t => t.getV 2) = some 7 := by decide
/-- The first Cycle after reset draws a free random byte, masked (R173). -/
theorem test_rnd_after_reset : (after (State.reset.withFetchWord 16 0xC20F)).map (fun t => t.getV 2) =
    some (Config.hostRnd 0 &&& 0x0F) := rfl

/-! ### Index and memory (M1 to M21) -/

theorem test_ld_i : (after (withWord 0xA300 base)).map State.i = some 0x300 := by decide
theorem test_add_i_wraps : (after (withWord 0xF01E ({ base with i := 0xFFFF }.setV 0 1))).map
    (fun t => (t.i, t.getV 15)) = some (0, 1) := by decide
theorem test_add_i_not_12_bits : (after (withWord 0xF01E (({ base with i := 0xFFF }.setV 0 1).setV 15 1))).map
    (fun t => (t.i, t.getV 15)) = some (0x1000, 0) := by decide
theorem test_ld_font : (after (withWord 0xF029 (base.setV 0 5))).map State.i = some 0x19 := by decide
theorem test_ld_font_not_masked : (after (withWord 0xF029 (base.setV 0 0xFF))).map State.i = some 0x4FB := by decide
theorem test_bcd : (after (withWord 0xF333 ({ base with i := 0x300 }.setV 3 0x9C))).map
    (fun t => (memRead t.mem 0x300, memRead t.mem 0x301, memRead t.mem 0x302, t.i)) = some (1, 5, 6, 0x300) := by decide
theorem test_bcd_at_the_top : (after (withWord 0xF033 ({ base with i := 0xFFE }.setV 0 0x7B))).map
    (fun t => (memRead t.mem 0xFFE, memRead t.mem 0xFFF, memRead t.mem 0)) = some (1, 2, memRead base.mem 0) := by decide
theorem test_store : (after (withWord 0xF155 ((({ base with i := 0x208 }.setV 0 0x63).setV 1 0xAA).setV 2 0x11))).map
    (fun t => (memRead t.mem 0x208, memRead t.mem 0x209, memRead t.mem 0x20A, t.i)) = some (0x63, 0xAA, 0, 0x208) := by
  decide
theorem test_store_above : (after (withWord 0xF155 (({ base with i := 0xFFFF }.setV 0 0x12).setV 1 0x34))).map
    State.mem = some (withWord 0xF155 base).mem := by decide
theorem test_load : (after (withWord 0xF265 (withBytes 0x300 [1, 5, 6, 7] ({ base with i := 0x300 }.setV 3 0x9C)))).map
    (fun t => (t.getV 0, t.getV 1, t.getV 2, t.getV 3, t.i)) = some (1, 5, 6, 0x9C, 0x300) := by decide
theorem test_load_at_the_top : (after (withWord 0xF165 (withBytes 0xFFF [0x77] ({ base with i := 0xFFF }.setV 1 0x55)))).map
    (fun t => (t.getV 0, t.getV 1)) = some (0x77, 0) := by decide

/-! ### Display (D1, D6, D10) -/

theorem test_drw_wraps_columns : (after (withWord 0xD012 (withBytes 0x300 [0xFF, 0xFF]
    (({ base with i := 0x300 }.setV 0 60).setV 1 30)))).map
    (fun t => (cells [(59, 30), (60, 30), (63, 31), (0, 30), (3, 31), (4, 31), (60, 29), (0, 0)] t, t.getV 15, t.draw)) =
    some ([false, true, true, true, true, false, false, false], 0, true) := by decide
/-- D4: bit 7 is the left pixel; a pixel turned off is a collision. -/
theorem test_drw_collision : (after (withWord 0xD011 (withBytes 0x300 [0xC0]
    { base with i := 0x300, fb := base.fb.toggle 0 0 }))).map
    (fun t => (cells [(0, 0), (1, 0), (2, 0), (7, 0)] t, t.getV 15)) = some ([false, true, false, false], 1) := by decide
theorem test_cls : (after (withWord 0x00E0 ({ base with fb := base.fb.toggle 63 31 }.setV 15 7))).map
    (fun t => (cells [(63, 31), (0, 0)] t, t.draw, t.getV 15, t.pc)) = some ([false, false], true, 7, 0x202) := by decide

/-! ### Keypad and timers (K1, K3, K4, K6 to K8, K11 to K13) -/

theorem test_skp : (after (withWord 0xE49E (withKeys 0x0080 ({ base with pc := 0x210 }.setV 4 7)))).map State.pc =
    some 0x214 := by decide
theorem test_skp_above_15 : (after (withWord 0xE49E (withKeys 0x0080 ({ base with pc := 0x210 }.setV 4 0x17)))).map State.pc =
    some 0x212 := by decide
theorem test_sknp : (after (withWord 0xE4A1 (withKeys 0x0080 ({ base with pc := 0x210 }.setV 4 7)))).map State.pc =
    some 0x212 := by decide
theorem test_sknp_above_15 : (after (withWord 0xE4A1 (withKeys 0x0080 ({ base with pc := 0x210 }.setV 4 0x17)))).map State.pc =
    some 0x214 := by decide
theorem test_key_wait : (after (withWord 0xF10A ({ base with pc := 0x204 }.setV 1 0x33))).map
    (fun t => (t.getV 1, t.pc)) = some (0x33, 0x204) := by decide
theorem test_key_wait_least : (after (withWord 0xF10A (withKeys 0x0280 ({ base with pc := 0x204 }.setV 1 0x33)))).map
    (fun t => (t.getV 1, t.pc)) = some (7, 0x206) := by decide
theorem test_ld_dt : (after (withWord 0xF207 { base with dt := 1 })).map (fun t => (t.getV 2, t.dt)) = some (1, 1) := by decide
theorem test_set_dt : (after (withWord 0xF015 (base.setV 0 3))).map State.dt = some 3 := by decide
theorem test_set_st : (after (withWord 0xF518 (base.setV 5 0x1E))).map State.st = some 0x1E := by decide

/-! ### Events (T1 to T3, T6, Z1, L1, L4) -/

theorem test_tick : (after { base with dt := 3, pending := [.timerTick] }).map (fun t => (t.dt, t.st, t.pc)) =
    some (2, 0, 0x200) := by decide
theorem test_tick_top : (after { base with dt := 0xFF, st := 0xFF, pending := [.timerTick] }).map
    (fun t => (t.dt, t.st)) = some (0xFE, 0xFE) := by decide
theorem test_draw_ack : (after { base with draw := true, pending := [.drawAck] }).map State.draw = some false := by decide
theorem test_reset_event : (after (withBytes 0x300 [0x77] ({ base with
      pc := 0x456, sp := 5, stack := base.stack.set 2 0x222, i := 0xABC, dt := 9, st := 8, fb := base.fb.toggle 5 5,
      pending := [.reset] }.setV 3 0x9C))) = some { State.reset with inputs := base.inputs } := by decide
theorem test_load_rom : (after { base with pc := 0x456, pending := [.loadRom [0x12, 0x00]] }).map
    (fun t => (t.mem, t.pc, t.draw, t.lastLoad)) = some ([(0x200, 0x12)], 0x200, true, some .ok) := by decide
/-- L4, for every ROM of 3585 bytes. -/
theorem test_load_rom_oversize (bytes : List Byte) (h : bytes.length = 3585) :
    after { base with dt := 7, pending := [.loadRom bytes] } =
      some { base with dt := 7, lastLoad := some .oversizeRom } := by
  unfold after
  rw [step_of_cons rfl]
  simp only [runEvent, State.loadRomEvent, loadRom_of_gt (show 3584 < bytes.length by omega)]
  rfl
theorem test_with_fetch_word : (after (State.reset.withFetchWord 16 0x6105)).map (fun t => t.getV 1) = some 5 := by decide

/-! ### Witnesses: states and operands that meet the hypotheses of the statements -/

/-- DecodeOfEncodeIsTheInstruction. -/
theorem witness_well_formed : Instr.wellFormed (.nop 0x0FFF) = true ∧ Instr.wellFormed (.drw 15 15 15) = true := by decide

/-- WordSelectsTheRowOfItsInstruction, ReservedWordsAndNoOthersAreNop: a row and a word of each kind. -/
theorem witness_row : (⟨23, 0xD000, 0xF000⟩ : OpcodeRow) ∈ opcodeRows ∧
    OpcodeRow.selects ⟨23, 0xD000, 0xF000⟩ 0xD012 = true ∧ reservedWord 0x5121 = true ∧ reservedWord 0x5120 = false := by decide

/-- FetchIsBigEndianAndGuarded: the last address that fetches and the first that does not. -/
theorem witness_fetch : 0xFFE ≤ 0xFFE ∧ 0xFFE < 0xFFF := by decide

/-- StepRunsTheInstructionAtPc, with nothing queued and with a Cycle queued; PC at the last address that fetches. -/
theorem witness_step_runs :
    let s := withBytes 0xFFE [0x61, 0x05] { base with pc := 0xFFE }
    let a : Inputs := { paused := false, keys := 0x8000, rnd := 0xA7 }
    s.pc.toNat ≤ 0xFFE ∧ decodeBytes [memRead s.mem s.pc.toNat, memRead s.mem (s.pc.toNat + 1)] = .ok (.ldImm 1 5, []) ∧
      s.pending = [] ∧ s.inputs.paused = false ∧
      { s with pending := [.cycle a] }.pending = .cycle a :: [] ∧ a.paused = false := by decide

/-- StepAboveMemoryIsNop, at both ends of the range, with nothing queued and with a Cycle queued. -/
theorem witness_above_memory :
    ({ base with pc := 0xFFF }.pending = [] ∧ { base with pc := 0xFFF }.inputs.paused = false ∧
      0xFFF ≤ { base with pc := 0xFFF }.pc.toNat) ∧
    ({ base with pc := 0xFFFF }.pending = [] ∧ { base with pc := 0xFFFF }.inputs.paused = false ∧
      0xFFF ≤ { base with pc := 0xFFFF }.pc.toNat) ∧
    ({ base with pc := 0xFFF, pending := [.cycle base.inputs] }.pending = .cycle base.inputs :: [] ∧
      base.inputs.paused = false) := by decide

/-- PausedCycleChangesNothing, with a Cycle queued and with nothing queued. -/
theorem witness_paused :
    let a : Inputs := { paused := true, keys := 0, rnd := 0 }
    { base with pending := [.cycle a] }.pending = .cycle a :: [] ∧ a.paused = true ∧
      { base with inputs := a }.pending = [] ∧ { base with inputs := a }.inputs.paused = true := by decide

/-- PcEndsWhereItsInstructionSays, ControlStateChangesOnlyByItsInstructions: a next state; RET with SP at 0 and at 16. -/
theorem witness_exec_next : (∃ t, exec .ret base = .next t) ∧ base.sp.toNat = 0 ∧
    (∃ t, exec .ret { base with sp := 16 } = .next t) ∧ { base with sp := 16 }.sp.toNat = (15 : Fin 16).val + 1 :=
  ⟨⟨_, rfl⟩, by decide, ⟨_, rfl⟩, by decide⟩

/-- InputsAreReadOnlyByTheirInstructions, TickCommutesWithInstructionsThatReachNoTimer. -/
theorem witness_other_instruction : (∀ x, Instr.cls ≠ .skp x ∧ Instr.cls ≠ .sknp x ∧ Instr.cls ≠ .ldVxKey x) ∧
    (∀ x kk, Instr.cls ≠ .rnd x kk) ∧ (∀ x, Instr.cls ≠ .ldVxDt x ∧ Instr.cls ≠ .ldDtVx x ∧ Instr.cls ≠ .ldStVx x) := by
  simp

/-- JumpToSelfIsAFixedPoint. -/
theorem witness_jump_to_self :
    let s := withWord 0x1200 base
    s.pc.toNat = (0x200 : Addr12).toNat ∧ s.fetched = .jp 0x200 ∧ s.pending = [] ∧ s.inputs.paused = false ∧
      { s with pending := [.cycle s.inputs] }.pending = .cycle s.inputs :: [] := by decide

/-- CallPushesItsOwnAddress: the first and the last entry, and a full stack. -/
theorem witness_call : base.sp.toNat = (0 : Fin 16).val ∧ { base with sp := 15 }.sp.toNat = (15 : Fin 16).val ∧
    { base with sp := 16 }.sp.toNat = 16 := by decide

/-- ReturnPopsAndStepsOverTheCall: SP at 1, at 16 (both in states that keep the invariant) and at 0. -/
theorem witness_return : { base with sp := 1 }.sp.toNat = (0 : Fin 16).val + 1 ∧ State.Inv { base with sp := 1 } ∧
    { base with sp := 16 }.sp.toNat = (15 : Fin 16).val + 1 ∧ State.Inv { base with sp := 16 } ∧ base.sp.toNat = 0 := by decide

/-- NestedCallsReturnToTheFirst: sixteen calls from an empty stack, one call with one entry free; and an entry below and
one above those that a call at SP = 7 uses. -/
theorem witness_nested : (List.replicate 16 (0x204 : Addr12)) ≠ [] ∧
    base.sp.toNat + (List.replicate 16 (0x204 : Addr12)).length ≤ 16 ∧
    { base with sp := 15 }.sp.toNat + [(0x204 : Addr12)].length ≤ 16 ∧
    (6 : Fin 16).val < { base with sp := 7 }.sp.toNat ∧
    { base with sp := 7 }.sp.toNat + [(0x204 : Addr12)].length ≤ (8 : Fin 16).val := by decide

/-- The register statements: a destination that is not VF; and VF itself, which no hypothesis shuts out. -/
theorem witness_not_vf : (14 : Reg) ≠ 15 ∧ (0 : Reg) ≠ 15 := by decide

/-- VfChangesOnlyByFlagOrDestination: a next state in which VF has changed. -/
theorem witness_vf_changes : ∃ t, exec (.addReg 0 0) (base.setV 0 0x80) = .next t ∧
    t.getV 15 ≠ (base.setV 0 0x80).getV 15 := ⟨_, rfl, by decide⟩

/-- LoadIndexSetsI: a new value of I above 0xFFF. -/
theorem witness_index_above : ∃ t, exec (.addI 0) ({ base with i := 0xFFF }.setV 0 1) = .next t ∧
    t.i ≠ ({ base with i := 0xFFF }.setV 0 1).i ∧ 0xFFF < t.i.toNat := ⟨_, rfl, by decide⟩

/-- BcdStoresThreeDigits, StoreRegistersWritesTheBlock, LoadRegistersReadsTheBlock: the last address at which everything
is in memory. -/
theorem witness_block_in_memory : base.mem.wf = true ∧ (0xFFD : Word).toNat + 2 ≤ 0xFFF ∧ (15 : Reg) ≤ 15 ∧
    (0xFF0 : Word).toNat + (15 : Reg).val ≤ 0xFFF := by decide

/-- StoresAboveMemoryAreDropped, at both ends of the range. -/
theorem witness_index_out : 0xFFF < { base with i := 0x1000 }.i.toNat ∧ 0xFFF < { base with i := 0xFFFF }.i.toNat := by decide

/-- LoadAfterStoreGivesTheRegistersBack. -/
theorem witness_load_after_store : { base with i := 0xFF0 }.mem.wf = true ∧
    { base with i := 0xFF0 }.i.toNat + (15 : Reg).val ≤ 0xFFF := by decide

/-- StoredBytesAreFetchedAtOnce. -/
theorem witness_stored_bytes : { base with i := 0xFFE }.mem.wf = true ∧ { base with i := 0xFFE }.i.toNat ≤ 0xFFE ∧
    (1 : Reg) ≤ 1 := by decide

/-- ControlStateChangesOnlyByItsInstructions: each element does change under one of its instructions. -/
theorem witness_control_i : ∃ t, exec (.ldI 0x300) base = .next t ∧ t.i ≠ base.i := ⟨_, rfl, by decide⟩
theorem witness_control_stack : ∃ t, exec (.call 0x300) base = .next t ∧ t.stack ≠ base.stack ∧ t.sp ≠ base.sp :=
  ⟨_, rfl, by decide⟩
theorem witness_control_timers : (∃ t, exec (.ldDtVx 0) (base.setV 0 3) = .next t ∧ t.dt ≠ base.dt) ∧
    ∃ t, exec (.ldStVx 0) (base.setV 0 3) = .next t ∧ t.st ≠ base.st := ⟨⟨_, rfl, by decide⟩, ⟨_, rfl, by decide⟩⟩
theorem witness_control_mem : ∃ t, exec (.storeRegs 0) ({ base with i := 0x300 }.setV 0 3) = .next t ∧ t.mem ≠ base.mem :=
  ⟨_, rfl, by decide⟩
theorem witness_control_display : ∃ t, exec .cls { base with fb := base.fb.toggle 63 31 } = .next t ∧
    t.fb ≠ base.fb.toggle 63 31 ∧ t.draw ≠ base.draw := ⟨_, rfl, by decide⟩

/-- A state with the sprite byte 0x80 at I and V0 = 63, V1 = 31: the last cell. -/
def corner : State := withBytes 0x300 [0x80] (({ base with i := 0x300 }.setV 0 63).setV 1 31)

/-- DrawTogglesTheSpritesCells, DrawingTwiceRestoresTheFramebuffer: a set sprite bit on the last cell, over a cell that is
0 and over one that is 1. -/
theorem witness_sprite : SpritePixel corner 0 1 1 63 31 ∧ Framebuffer.cell corner.fb 63 31 = false ∧
    SpritePixel { corner with fb := corner.fb.toggle 63 31 } 0 1 1 63 31 ∧
    Framebuffer.cell (corner.fb.toggle 63 31) 63 31 = true ∧ (0 : Reg) ≠ 15 ∧ (1 : Reg) ≠ 15 :=
  ⟨⟨0, 0, by decide⟩, by decide, ⟨0, 0, by decide⟩, by decide⟩

/-- The same two: a sprite with no set bit at all, N = 0. -/
theorem witness_no_sprite : ¬ ∃ cx cy, SpritePixel corner 0 1 0 cx cy := by
  rintro ⟨cx, cy, c, r, h, hr, rest⟩; exact absurd hr (by simp)

/-- DrawFlagFollowsEveryChangeUntilAcknowledged: a step that changes a cell, from a state whose draw flag is raised. -/
theorem witness_draw_flag : ∃ t, step { withWord 0xD011 corner with draw := true } = .next t ∧
    t.fb ≠ { withWord 0xD011 corner with draw := true }.fb ∧
    { withWord 0xD011 corner with draw := true }.draw = true ∧
    ∀ rest, { withWord 0xD011 corner with draw := true }.pending ≠ .drawAck :: rest :=
  ⟨_, rfl, by decide, rfl, fun _ h => by cases h⟩

/-- KeyWaitLoadsTheLeastKeyOrWaits: the least key in the middle and at the top, and no key. -/
theorem witness_keys : (0x0280#16).getLsbD (7 : Fin 16) = true ∧
    (∀ j : Fin 16, j < 7 → (0x0280#16).getLsbD j = false) ∧ (0x8000#16).getLsbD (15 : Fin 16) = true ∧
    (∀ j : Fin 16, j < 15 → (0x8000#16).getLsbD j = false) ∧ (∀ k : Fin 16, (0x0000#16).getLsbD k = false) := by decide

/-- The event statements: each event at the head of the queue. -/
theorem witness_timer_tick : { base with pending := [.timerTick] }.pending = .timerTick :: [] := rfl
theorem witness_ticks : { base with pending := [.timerTick, .timerTick, .timerTick, .reset] }.pending =
    List.replicate 3 .timerTick ++ [.reset] := rfl
theorem witness_draw_ack : { base with pending := [.drawAck] }.pending = .drawAck :: [] := rfl
theorem witness_reset : { base with pending := [.reset] }.pending = .reset :: [] := rfl

/-- LoadRomResetsAndCopiesOrRefuses: the longest ROM that is taken, and the shortest that is refused. -/
theorem witness_load_rom (bytes : List Byte) :
    { base with pending := [.loadRom bytes] }.pending = .loadRom bytes :: [] ∧
    (List.replicate Config.maxRom (0x12 : Byte)).length ≤ 3584 ∧
    3584 < (List.replicate (Config.maxRom + 1) (0x12 : Byte)).length := by
  rw [List.length_replicate, List.length_replicate]; exact ⟨rfl, by decide, by decide⟩

/-- EveryStepKeepsTheInvariant. -/
theorem witness_invariant : State.reset.Inv ∧ ∃ t, step State.reset = .next t := ⟨by decide, ⟨_, rfl⟩⟩

end Sys2Proof.Tests
end

section
/-!
PROOFS. Instruction fetch (spec R64): the fetched word as a number, and the statement about both sides of the guard.
-/
namespace Sys2Proof.Machine

/-- Two bytes put side by side are the number with the first as its high byte. -/
theorem toNat_append_bytes (hi lo : Byte) : (hi ++ lo).toNat = hi.toNat * 256 + lo.toNat := by
  rw [BitVec.toNat_append, ← Nat.shiftLeft_add_eq_or_of_lt lo.isLt, Nat.shiftLeft_eq]

/-- The word fetched inside memory, as a number (R64). -/
theorem toNat_memFetch_of_le (m : Memory) {a : Nat} (h : a ≤ 0xFFE) :
    (memFetch m a).toNat = (memRead m a).toNat * 256 + (memRead m (a + 1)).toNat := by
  rw [memFetch_of_le m h, toNat_append_bytes]

/-- The word that a fetch outside memory gives is a NOP. -/
theorem decode_zero : decode 0 = .nop 0 := by decide

/-- Settles O6, by the two sides of the guard: the bytes at `a` and `a + 1` below it, the all-zero word above. -/
theorem fetchIsBigEndianAndGuarded : Obligations.FetchIsBigEndianAndGuarded := by
  intro m a
  constructor
  · exact toNat_memFetch_of_le m
  · intro h
    have hzero : memFetch m a = 0 := memFetch_of_gt m h
    exact ⟨hzero, hzero ▸ decode_zero⟩

end Sys2Proof.Machine
end

section
/-!
PROOFS. The advance of PC and the frame of an instruction that writes PC only (spec R124), and NOP (spec R125).
-/
namespace Sys2Proof.Machine

/-- A state that differs in its PC field alone reads the same in every other piece. -/
theorem changesOnly_pc_of_setPc (s : State) (w : Word) : ChangesOnly [.pc] s { s with pc := w } := by
  intro p hp
  cases p with
  | pc => exact absurd List.mem_cons_self hp
  | _ => rfl

/-- The sum of words is the sum modulo 2^16 (R10). -/
theorem pcAdvanced_of_pc_eq_add {k : Nat} {s t : State} (h : t.pc = s.pc + BitVec.ofNat 16 k) : PcAdvanced k s t := by
  rw [PcAdvanced, h, BitVec.toNat_add, BitVec.toNat_ofNat, Nat.add_mod_mod]

/-- The default advance, whatever came before it (R124). -/
theorem State.advance_pcAdvanced (s : State) : PcAdvanced 2 s s.advance := pcAdvanced_of_pc_eq_add s.advance_pc

theorem State.advance_changesOnly_pc (s : State) : ChangesOnly [.pc] s s.advance := changesOnly_pc_of_setPc s s.nextPc

/-- A NOP is the default advance alone, whatever its word (R125). -/
@[simp] theorem exec_nop (w : Word) (s : State) : exec (.nop w) s = .next s.advance := rfl

/-- Settles O10, by the two facts about the default advance: where it leaves PC, and that it writes nothing else. -/
theorem nopOnlyAdvancesPc : Obligations.NopOnlyAdvancesPc := fun w s =>
  ⟨s.advance, exec_nop w s, s.advance_pcAdvanced, s.advance_changesOnly_pc⟩

end Sys2Proof.Machine
end

section
/-!
PROOFS. The return (spec R140): what the pop does with an entry in use, what it leaves unchanged, and the statement about
both sides of the underflow.
-/
namespace Sys2Proof.Machine

/-- RET is the pop alone (R140). -/
@[simp] theorem exec_ret (s : State) : exec .ret s = .next s.popPc := rfl

/-- A pop writes PC and SP at most; the stack keeps every entry (R24). -/
theorem popPc_changesOnly_pc_sp (s : State) : ChangesOnly [.pc, .sp] s s.popPc := by
  intro p hp
  cases p with
  | pc | sp => simp at hp
  | _ => simp [Piece.same]

/-- A pop with the entries 0 to `k` in use takes entry `k` (R140). -/
theorem popPc_of_sp_eq_succ {s : State} {k : Fin 16} (h : s.sp.toNat = k.val + 1) :
    s.popPc.sp.toNat = k.val ∧ s.popPc.pc = s.stack[k] + 2 := by
  obtain ⟨hsp, hpc⟩ := popPc_of_pos s (by omega)
  have hk : s.sp.toNat - 1 = k.val := by omega
  rw [hk] at hsp hpc
  exact ⟨hsp, hpc.trans (congrArg (· + 2) (stackEntry_of_lt s k.isLt))⟩

/-- Under the invariant the address after a stacked CALL is at most 0x1000 (R140, R142). -/
theorem State.Inv.stack_add_two_le {s : State} (h : s.Inv) (k : Fin 16) : (s.stack[k] + 2).toNat ≤ 0x1000 := by
  obtain ⟨-, -, hstack⟩ := h
  have hk := hstack k
  rw [word_add_two_toNat]
  omega

/-- Settles O17, by the two cases of the pop: an entry in use, and none. -/
theorem returnPopsAndStepsOverTheCall : Obligations.ReturnPopsAndStepsOverTheCall := by
  intro s _
  refine ⟨s.popPc, exec_ret s, fun k hk => ?_, fun h0 => ?_⟩
  · obtain ⟨hsp, hpc⟩ := popPc_of_sp_eq_succ hk
    rw [hpc]
    exact ⟨hsp, word_add_two_toNat _, fun hinv => hinv.stack_add_two_le k, popPc_changesOnly_pc_sp s⟩
  · rw [popPc_of_zero s h0]
    exact ⟨s.advance_pcAdvanced, s.advance_changesOnly_pc⟩

end Sys2Proof.Machine
end

section
/-!
PROOFS. The jumps (spec R141, R147) and the skips on a comparison of bytes (spec R143 to R146).
-/
namespace Sys2Proof.Machine

/-- `1NNN` goes to NNN (R141). -/
@[simp] theorem exec_jp (nnn : Addr12) (s : State) : exec (.jp nnn) s = .next (s.jumpTo (addrOf nnn)) := rfl

/-- `BNNN` goes to V0 plus NNN (R147). -/
@[simp] theorem exec_jpV0 (nnn : Addr12) (s : State) :
    exec (.jpV0 nnn) s = .next (s.jumpTo (byteToWord (s.getV v0) + addrOf nnn)) := rfl

/-- `3XKK` skips when VX is KK (R143). -/
@[simp] theorem exec_seImm (x : Reg) (kk : Byte) (s : State) :
    exec (.seImm x kk) s = .next (s.skipIf (s.getV x == kk)) := rfl

/-- `4XKK` skips when VX is not KK (R144). -/
@[simp] theorem exec_sneImm (x : Reg) (kk : Byte) (s : State) :
    exec (.sneImm x kk) s = .next (s.skipIf (s.getV x != kk)) := rfl

/-- `5XY0` skips when VX is VY (R145). -/
@[simp] theorem exec_seReg (x y : Reg) (s : State) :
    exec (.seReg x y) s = .next (s.skipIf (s.getV x == s.getV y)) := rfl

/-- `9XY0` skips when VX is not VY (R146). -/
@[simp] theorem exec_sneReg (x y : Reg) (s : State) :
    exec (.sneReg x y) s = .next (s.skipIf (s.getV x != s.getV y)) := rfl

theorem State.jumpTo_changesOnly_pc (s : State) (w : Word) : ChangesOnly [.pc] s (s.jumpTo w) :=
  changesOnly_pc_of_setPc s w

/-- A byte plus a twelve-bit address never reaches 2^16, so the sum of words is the sum of numbers (R93, R147). -/
theorem byteToWord_add_addrOf_toNat (b : Byte) (nnn : Addr12) :
    (byteToWord b + addrOf nnn).toNat = b.toNat + nnn.toNat := by
  have hb := b.isLt
  have hn := nnn.isLt
  rw [BitVec.toNat_add, byteToWord_toNat, addrOf_toNat, Nat.mod_eq_of_lt (by omega)]

/-- Settles O14: the jump is the one write of PC. -/
theorem jumpSetsPcToAddress : Obligations.JumpSetsPcToAddress := fun nnn s =>
  ⟨s.jumpTo (addrOf nnn), exec_jp nnn s, addrOf_toNat nnn, s.jumpTo_changesOnly_pc _⟩

/-- Settles O15, by the sum that needs no reduction. -/
theorem jumpV0AddsWholeOperands : Obligations.JumpV0AddsWholeOperands := fun nnn s =>
  ⟨s.jumpTo (byteToWord (s.getV v0) + addrOf nnn), exec_jpV0 nnn s, byteToWord_add_addrOf_toNat _ nnn,
    s.jumpTo_changesOnly_pc _⟩

theorem State.skipIf_changesOnly_pc (s : State) (c : Bool) : ChangesOnly [.pc] s (s.skipIf c) :=
  changesOnly_pc_of_setPc s _

/-- A skip advances PC by 4 when its condition holds and by 2 when it does not (R124). -/
theorem State.skipIf_pcAdvanced (s : State) (c : Bool) : PcAdvanced (if c then 4 else 2) s (s.skipIf c) := by
  cases c with
  | false => exact pcAdvanced_of_pc_eq_add (s.skipIf_pc false)
  | true => exact pcAdvanced_of_pc_eq_add (s.skipIf_pc true)

/-- The skip on equal bytes, the bytes compared as numbers (R143, R145). -/
theorem State.skipIf_beq_pcAdvanced (s : State) (a b : Byte) :
    PcAdvanced (if a.toNat = b.toNat then 4 else 2) s (s.skipIf (a == b)) := by
  simpa only [BitVec.toNat_inj, beq_iff_eq] using s.skipIf_pcAdvanced (a == b)

/-- The skip on unequal bytes, the bytes compared as numbers (R144, R146). -/
theorem State.skipIf_bne_pcAdvanced (s : State) (a b : Byte) :
    PcAdvanced (if a.toNat = b.toNat then 2 else 4) s (s.skipIf (a != b)) := by
  simpa only [BitVec.toNat_inj, bne_iff_ne, ne_eq, ite_not] using s.skipIf_pcAdvanced (a != b)

/-- Settles O18, by the skip on equal and on unequal bytes. -/
theorem skipsCompareWithTheImmediate : Obligations.SkipsCompareWithTheImmediate := fun x kk s =>
  ⟨⟨_, exec_seImm x kk s, s.skipIf_beq_pcAdvanced _ kk, s.skipIf_changesOnly_pc _⟩,
    ⟨_, exec_sneImm x kk s, s.skipIf_bne_pcAdvanced _ kk, s.skipIf_changesOnly_pc _⟩⟩

/-- Settles O19, by the skip on equal and on unequal bytes. -/
theorem skipsCompareTwoRegisters : Obligations.SkipsCompareTwoRegisters := fun x y s =>
  ⟨⟨_, exec_seReg x y s, s.skipIf_beq_pcAdvanced _ _, s.skipIf_changesOnly_pc _⟩,
    ⟨_, exec_sneReg x y s, s.skipIf_bne_pcAdvanced _ _, s.skipIf_changesOnly_pc _⟩⟩

end Sys2Proof.Machine
end

section
/-!
PROOFS. The instructions that write VX and no flag (spec R162 to R167, R173): each is one register write and the default
advance, so PC and the frame are said once, for that pair; what is left for each statement is the byte written.
-/
namespace Sys2Proof.Machine

/-- `6XKK` writes KK (R162). -/
@[simp] theorem exec_ldImm (x : Reg) (kk : Byte) (s : State) : exec (.ldImm x kk) s = .next (s.setV x kk).advance := rfl

/-- `7XKK` writes VX plus KK (R163). -/
@[simp] theorem exec_addImm (x : Reg) (kk : Byte) (s : State) :
    exec (.addImm x kk) s = .next (s.setV x (s.getV x + kk)).advance := rfl

/-- `8XY0` writes VY (R164). -/
@[simp] theorem exec_ldReg (x y : Reg) (s : State) : exec (.ldReg x y) s = .next (s.setV x (s.getV y)).advance := rfl

/-- `8XY1` writes the or of VX and VY (R165). -/
@[simp] theorem exec_orReg (x y : Reg) (s : State) :
    exec (.orReg x y) s = .next (s.setV x (s.getV x ||| s.getV y)).advance := rfl

/-- `8XY2` writes the and of VX and VY (R166). -/
@[simp] theorem exec_andReg (x y : Reg) (s : State) :
    exec (.andReg x y) s = .next (s.setV x (s.getV x &&& s.getV y)).advance := rfl

/-- `8XY3` writes the exclusive or of VX and VY (R167). -/
@[simp] theorem exec_xorReg (x y : Reg) (s : State) :
    exec (.xorReg x y) s = .next (s.setV x (s.getV x ^^^ s.getV y)).advance := rfl

/-- `CXKK` writes the random byte of the Cycle's arguments, masked by KK (R34, R173). -/
@[simp] theorem exec_rnd (x : Reg) (kk : Byte) (s : State) :
    exec (.rnd x kk) s = .next (s.setV x (s.inputs.rnd &&& kk)).advance := rfl

theorem State.setV_advance_pcAdvanced (s : State) (x : Reg) (b : Byte) : PcAdvanced 2 s (s.setV x b).advance :=
  (s.setV x b).advance_pcAdvanced

/-- Any other register, VF included when X is not F, and every other piece reads as before (R161). -/
theorem State.setV_advance_changesOnly (s : State) (x : Reg) (b : Byte) :
    ChangesOnly [.v x, .pc] s (s.setV x b).advance := by
  intro p hp
  cases p with
  | v r =>
    have hne : r ≠ x := fun e => hp (e ▸ List.mem_cons_self)
    exact getV_setV_of_ne s b hne
  | pc => simp at hp
  | _ => rfl

/-- Settles O21, by the register read after the register write. -/
theorem loadsWriteOnlyTheDestination : Obligations.LoadsWriteOnlyTheDestination := fun x y kk s =>
  ⟨⟨_, exec_ldImm x kk s, getV_setV_same s x kk, s.setV_advance_pcAdvanced x _, s.setV_advance_changesOnly x _⟩,
    ⟨_, exec_ldReg x y s, getV_setV_same s x _, s.setV_advance_pcAdvanced x _, s.setV_advance_changesOnly x _⟩⟩

/-- Settles O22: the byte written is a sum of bytes, which is the sum of numbers modulo 2^8. -/
theorem addImmediateWrapsWithoutFlag : Obligations.AddImmediateWrapsWithoutFlag := fun x kk s =>
  ⟨_, exec_addImm x kk s, by rw [getV_advance, getV_setV_same, BitVec.toNat_add],
    s.setV_advance_pcAdvanced x _, s.setV_advance_changesOnly x _⟩

/-- Settles O23: each operation on bytes is, at every position, the one on bits. -/
theorem logicActsBitByBitWithoutFlag : Obligations.LogicActsBitByBitWithoutFlag := fun x y s =>
  ⟨⟨_, exec_orReg x y s, fun j => by rw [getV_advance, getV_setV_same, BitVec.getLsbD_or],
      s.setV_advance_pcAdvanced x _, s.setV_advance_changesOnly x _⟩,
    ⟨_, exec_andReg x y s, fun j => by rw [getV_advance, getV_setV_same, BitVec.getLsbD_and],
      s.setV_advance_pcAdvanced x _, s.setV_advance_changesOnly x _⟩,
    ⟨_, exec_xorReg x y s, fun j => by rw [getV_advance, getV_setV_same, BitVec.getLsbD_xor],
      s.setV_advance_pcAdvanced x _, s.setV_advance_changesOnly x _⟩⟩

/-- Settles O27: a bit of the masked byte is the random byte's bit and KK's bit. -/
theorem randomIsMaskedByTheImmediate : Obligations.RandomIsMaskedByTheImmediate := fun x kk s =>
  ⟨_, exec_rnd x kk s, fun j => by rw [getV_advance, getV_setV_same, BitVec.getLsbD_and],
    s.setV_advance_pcAdvanced x _, s.setV_advance_changesOnly x _⟩

end Sys2Proof.Machine
end

section
/-!
PROOFS. The instructions that set I (spec R190 to R192) and the values they give it: every other instruction leaves I
alone, so a new value above 0xFFF can come from FX1E only.
-/
namespace Sys2Proof.Machine

/-- `ANNN` loads NNN into I (R190). -/
@[simp] theorem exec_ldI (nnn : Addr12) (s : State) : exec (.ldI nnn) s = .next { s with i := addrOf nnn }.advance := rfl

/-- Writing I and advancing leaves every piece but I and PC as before (R190, R192). -/
theorem State.setI_advance_changesOnly (s : State) (w : Word) : ChangesOnly [.i, .pc] s { s with i := w }.advance := by
  intro p hp
  cases p with
  | i | pc => simp at hp
  | _ => rfl

/-- An address field never exceeds the last address of memory (R190). -/
theorem addrOf_toNat_le (nnn : Addr12) : (addrOf nnn).toNat ≤ 0xFFF := by
  have hn := nnn.isLt
  rw [addrOf_toNat]
  omega

/-- Five times a byte never reaches 2^16, so the product of words is the product of numbers (R192). -/
theorem glyphAddr_toNat (b : Byte) : (glyphAddr b).toNat = b.toNat * 5 := by
  have hb := b.isLt
  have hfive : (5 : Word).toNat = 5 := rfl
  rw [glyphAddr, BitVec.toNat_mul, byteToWord_toNat, hfive, Nat.mod_eq_of_lt (by omega)]

/-- The address of a glyph is inside memory, whatever the glyph's number (R192). -/
theorem glyphAddr_toNat_le (b : Byte) : (glyphAddr b).toNat ≤ 0xFFF := by
  have hb := b.isLt
  rw [glyphAddr_toNat]
  omega

/-- What an instruction can do to I: leave it alone, load NNN, add to it, or point it at a glyph (R23, R196). -/
theorem exec_i_cases {i : Instr} {s t : State} (h : exec i s = .next t) :
    t.i = s.i ∨ (∃ nnn, i = .ldI nnn ∧ t.i = addrOf nnn) ∨
      (∃ x, i = .addI x ∧ t.i = s.i + byteToWord (s.getV x)) ∨ (∃ x, i = .ldFont x ∧ t.i = glyphAddr (s.getV x)) := by
  cases i with
  | ldI nnn => cases h; exact .inr (.inl ⟨nnn, rfl, rfl⟩)
  | addI x => cases h; exact .inr (.inr (.inl ⟨x, rfl, rfl⟩))
  | ldFont x => cases h; exact .inr (.inr (.inr ⟨x, rfl, rfl⟩))
  | call nnn => cases h; exact .inl s.pushPc_i
  | ret => cases h; exact .inl s.popPc_i
  | ldVxKey x => cases h; left; split <;> rfl
  | _ => cases h; exact .inl rfl

/-- Settles O29, by the four things an instruction can do to I: of the three that give it a new value, NNN and a glyph's
address are at most 0xFFF. -/
theorem loadIndexSetsI : Obligations.LoadIndexSetsI := by
  refine ⟨fun nnn s => ⟨_, exec_ldI nnn s, addrOf_toNat nnn, State.advance_pcAdvanced _,
    s.setI_advance_changesOnly _⟩, fun i s t h hnew hbig => ?_⟩
  obtain hsame | ⟨nnn, -, hi⟩ | ⟨x, rfl, -⟩ | ⟨x, -, hi⟩ := exec_i_cases h
  · exact absurd hsame hnew
  · exact absurd (hi ▸ hbig) (addrOf_toNat_le nnn).not_gt
  · exact ⟨x, rfl⟩
  · exact absurd (hi ▸ hbig) (glyphAddr_toNat_le (s.getV x)).not_gt

end Sys2Proof.Machine
end

section
/-!
PROOFS. The display (spec R210): the cells as pieces, the frame of an instruction that writes the framebuffer and the
draw flag, and the cleared screen.
-/
namespace Sys2Proof.Machine

/-- `00E0` blanks the framebuffer and raises the draw flag (R210). -/
@[simp] theorem exec_cls (s : State) :
    exec .cls s = .next { s with fb := Framebuffer.blank, draw := true }.advance := rfl

/-- Every cell is one of the cell pieces. -/
@[simp] theorem cell_mem_cellPieces (x : Fin 64) (y : Fin 32) : Piece.cell x y ∈ cellPieces :=
  List.mem_flatMap.mpr ⟨y, List.mem_finRange y, List.mem_map_of_mem (List.mem_finRange x)⟩

/-- Writing the framebuffer and the draw flag and advancing leaves every other piece as before, whatever is written. -/
theorem State.setDisplay_advance_changesOnly (s : State) (fb : Framebuffer) (draw : Bool) :
    ChangesOnly (.draw :: .pc :: cellPieces) s { s with fb := fb, draw := draw }.advance := by
  intro p hp
  cases p with
  | draw | pc | cell x y => simp at hp
  | _ => rfl

/-- Settles O39: a blank framebuffer reads 0 at every cell, and the write of the display is all but the default advance. -/
theorem clearScreenClearsEveryCell : Obligations.ClearScreenClearsEveryCell := fun s =>
  ⟨_, exec_cls s, cell_blank, rfl, State.advance_pcAdvanced _, s.setDisplay_advance_changesOnly _ _⟩

end Sys2Proof.Machine
end

section
/-!
PROOFS. The three moves between VX and the timers (spec R224 to R226), and the frame of an instruction that writes one
timer.
-/
namespace Sys2Proof.Machine

/-- `FX07` writes DT to VX (R224). -/
@[simp] theorem exec_ldVxDt (x : Reg) (s : State) : exec (.ldVxDt x) s = .next (s.setV x s.dt).advance := rfl

/-- `FX15` writes VX to DT (R225). -/
@[simp] theorem exec_ldDtVx (x : Reg) (s : State) :
    exec (.ldDtVx x) s = .next { s with dt := s.getV x }.advance := rfl

/-- `FX18` writes VX to ST (R226). -/
@[simp] theorem exec_ldStVx (x : Reg) (s : State) :
    exec (.ldStVx x) s = .next { s with st := s.getV x }.advance := rfl

/-- Writing DT and advancing leaves every other piece as before, ST included (R225). -/
theorem State.setDt_advance_changesOnly (s : State) (b : Byte) :
    ChangesOnly [.dt, .pc] s { s with dt := b }.advance := by
  intro p hp
  cases p with
  | dt | pc => simp at hp
  | _ => rfl

/-- Writing ST and advancing leaves every other piece as before, DT included (R226). -/
theorem State.setSt_advance_changesOnly (s : State) (b : Byte) :
    ChangesOnly [.st, .pc] s { s with st := b }.advance := by
  intro p hp
  cases p with
  | st | pc => simp at hp
  | _ => rfl

/-- Settles O45: each move is one write, of VX, DT or ST, and the default advance. -/
theorem timerMovesCopyTheByte : Obligations.TimerMovesCopyTheByte := fun x s =>
  ⟨⟨_, exec_ldVxDt x s, getV_setV_same s x s.dt, s.setV_advance_pcAdvanced x _, s.setV_advance_changesOnly x _⟩,
    ⟨_, exec_ldDtVx x s, rfl, State.advance_pcAdvanced _, s.setDt_advance_changesOnly _⟩,
    ⟨_, exec_ldStVx x s, rfl, State.advance_pcAdvanced _, s.setSt_advance_changesOnly _⟩⟩

end Sys2Proof.Machine
end

section
/-!
PROOFS. The decoder and the encoder (spec R90 to R101). Every word is the word of what it decodes to, and every
instruction is what its word decodes to; the opcode map and the reserved regions follow from these two, because a word
that selects a row is the word of an instruction of that row.
-/
namespace Sys2Proof

/-! ### The word of an instruction, from the fields of a word -/

theorem wordNNN_of_class {w : Word} {c : Nibble} (hc : classOf w = c) : wordNNN c (fieldNNN w) = w :=
  hc ▸ wordNNN_fields w

theorem wordXKK_of_class {w : Word} {c : Nibble} (hc : classOf w = c) : wordXKK c (fieldX w) (fieldKK w) = w :=
  hc ▸ wordXKK_fields w

theorem wordXYN_of_class {w : Word} {c : Nibble} (hc : classOf w = c) :
    wordXYN c (fieldX w) (fieldY w) (fieldN w) = w := hc ▸ wordXYN_fields w

theorem wordXKK_of_class_KK {w : Word} {c : Nibble} {kk : Byte} (hc : classOf w = c) (hk : fieldKK w = kk) :
    wordXKK c (fieldX w) kk = w := hk ▸ wordXKK_of_class hc

theorem wordXYN_of_class_N {w : Word} {c n : Nibble} (hc : classOf w = c) (hn : fieldN w = n) :
    wordXYN c (fieldX w) (fieldY w) n = w := hn ▸ wordXYN_of_class hc

/-! ### The reserved regions (R96) by the fields of a word -/

/-- The regions of R96, the numbers of its table read as fields. -/
theorem reservedWord_iff (w : Word) : reservedWord w = true ↔
    (classOf w = 0x0 ∧ w ≠ 0x00E0 ∧ w ≠ 0x00EE) ∨ (classOf w = 0x5 ∧ fieldN w ≠ 0) ∨
    (classOf w = 0x8 ∧ fieldN w ∈ [0x8, 0x9, 0xA, 0xB, 0xC, 0xD, 0xF]) ∨ (classOf w = 0x9 ∧ fieldN w ≠ 0) ∨
    (classOf w = 0xE ∧ fieldKK w ∉ [0x9E, 0xA1]) ∨
    (classOf w = 0xF ∧ fieldKK w ∉ [0x07, 0x0A, 0x15, 0x18, 0x1E, 0x29, 0x33, 0x55, 0x65]) := by
  simp only [reservedWord, ← classOf_toNat, ← fieldN_toNat, ← fieldKK_toNat, Bool.or_eq_true, Bool.and_eq_true,
    beq_iff_eq, bne_iff_ne, List.contains_iff_mem, Bool.not_eq_true', List.mem_cons, List.not_mem_nil, or_false,
    ← BitVec.toNat_inj, Bool.eq_false_iff, ne_eq, or_assoc, and_assoc]
  exact Iff.rfl

/-! ### From a word to its instruction and back -/

/-- The word is the one word of the instruction `i`, and a NOP's word is reserved. -/
def IsWordOf (w : Word) (i : Instr) : Prop := i.wellFormed = true ∧ encode i = w

theorem isWordOf_nop {w : Word} (h : reservedWord w = true) : IsWordOf w (.nop w) := ⟨h, rfl⟩

theorem isWordOf_decode0 {w : Word} (hc : classOf w = 0x0) : IsWordOf w (decode0 w) := by
  unfold decode0
  split_ifs with h1 h2
  · exact ⟨rfl, h1.symm⟩
  · exact ⟨rfl, h2.symm⟩
  · exact isWordOf_nop ((reservedWord_iff w).mpr (by simp_all))

theorem isWordOf_decode5 {w : Word} (hc : classOf w = 0x5) : IsWordOf w (decode5 w) := by
  unfold decode5
  split_ifs with hn
  · exact ⟨rfl, wordXYN_of_class_N hc hn⟩
  · exact isWordOf_nop ((reservedWord_iff w).mpr (by simp_all))

theorem isWordOf_decode8 {w : Word} (hc : classOf w = 0x8) : IsWordOf w (decode8 w) := by
  unfold decode8
  split
  case h_10 =>
    have hn : fieldN w ∈ [0x8, 0x9, 0xA, 0xB, 0xC, 0xD, 0xF] := by
      simp only [List.mem_cons, List.not_mem_nil, or_false, ← BitVec.toNat_inj]
      have hlt := (fieldN w).isLt
      grind
    exact isWordOf_nop ((reservedWord_iff w).mpr (by simp_all))
  all_goals
    rename_i hn
    exact ⟨rfl, wordXYN_of_class_N hc (BitVec.eq_of_toNat_eq hn)⟩

theorem isWordOf_decode9 {w : Word} (hc : classOf w = 0x9) : IsWordOf w (decode9 w) := by
  unfold decode9
  split_ifs with hn
  · exact ⟨rfl, wordXYN_of_class_N hc hn⟩
  · exact isWordOf_nop ((reservedWord_iff w).mpr (by simp_all))

theorem isWordOf_decodeE {w : Word} (hc : classOf w = 0xE) : IsWordOf w (decodeE w) := by
  unfold decodeE
  split_ifs with h1 h2
  · exact ⟨rfl, wordXKK_of_class_KK hc h1⟩
  · exact ⟨rfl, wordXKK_of_class_KK hc h2⟩
  · exact isWordOf_nop ((reservedWord_iff w).mpr (by simp_all))

theorem isWordOf_decodeF {w : Word} (hc : classOf w = 0xF) : IsWordOf w (decodeF w) := by
  unfold decodeF
  split_ifs
  case neg => exact isWordOf_nop ((reservedWord_iff w).mpr (by simp_all))
  all_goals exact ⟨rfl, wordXKK_of_class_KK hc ‹_›⟩

/-- Every word is the word of what it decodes to, class by class (R94, R101). -/
theorem isWordOf_decode (w : Word) : IsWordOf w (decode w) := by
  have hlt := (classOf w).isLt
  unfold decode
  split
  case h_1 hc => exact isWordOf_decode0 (BitVec.eq_of_toNat_eq hc)
  case h_6 hc => exact isWordOf_decode5 (BitVec.eq_of_toNat_eq hc)
  case h_9 hc => exact isWordOf_decode8 (BitVec.eq_of_toNat_eq hc)
  case h_10 hc => exact isWordOf_decode9 (BitVec.eq_of_toNat_eq hc)
  case h_15 hc => exact isWordOf_decodeE (BitVec.eq_of_toNat_eq hc)
  case h_16 =>
    have hc : (classOf w).toNat = 0xF := by grind
    exact isWordOf_decodeF (BitVec.eq_of_toNat_eq hc)
  case h_2 hc | h_3 hc | h_11 hc | h_12 hc => exact ⟨rfl, wordNNN_of_class (BitVec.eq_of_toNat_eq hc)⟩
  case h_4 hc | h_5 hc | h_7 hc | h_8 hc | h_13 hc => exact ⟨rfl, wordXKK_of_class (BitVec.eq_of_toNat_eq hc)⟩
  case h_14 hc => exact ⟨rfl, wordXYN_of_class (BitVec.eq_of_toNat_eq hc)⟩

@[simp] theorem encode_decode (w : Word) : encode (decode w) = w := (isWordOf_decode w).2

/-- Settles O3: the word of what a word decodes to is that word, in each class. -/
theorem encodeOfDecodeIsTheWord : Obligations.EncodeOfDecodeIsTheWord := isWordOf_decode

/-- The word of an instruction of the opcode map lies in none of the reserved regions (R96). -/
theorem reservedWord_encode {i : Instr} (hi : i.rowNumber ≠ 0) : reservedWord (encode i) = false := by
  rw [Bool.eq_false_iff, ne_eq, reservedWord_iff]
  cases i with
  | nop w => exact absurd rfl hi
  | cls | ret => decide
  | _ => simp [encode]

/-- A word decodes to a NOP that carries that word, if to a NOP at all. -/
theorem decode_eq_nop {w w' : Word} (h : decode w = .nop w') : w' = w := by
  simpa [h, encode] using encode_decode w

/-- The reserved words are the NOPs (R96). -/
theorem decode_eq_nop_iff (w : Word) : decode w = .nop w ↔ reservedWord w = true := by
  obtain ⟨hwf, hw⟩ := isWordOf_decode w
  constructor
  · intro h
    simpa [h, Instr.wellFormed] using hwf
  · intro hres
    cases hd : decode w with
    | nop w' => rw [decode_eq_nop hd]
    | _ =>
      have hfalse := reservedWord_encode (i := decode w) (by simp [hd, Instr.rowNumber])
      rw [hw, hres] at hfalse
      exact Bool.noConfusion hfalse

/-- The word of an instruction decodes to it: its class, and where the class is shared its N or KK, select it (R94). -/
theorem decode_encode {i : Instr} (hwf : i.wellFormed = true) : decode (encode i) = i := by
  cases i with
  | cls | ret => decide
  | nop w => exact (decode_eq_nop_iff w).mpr hwf
  | seReg x y => simp [encode, decode, decode5]
  | sneReg x y => simp [encode, decode, decode9]
  | ldReg | orReg | andReg | xorReg | addReg | subReg | shr | subn | shl => simp [encode, decode, decode8]
  | skp | sknp => simp [encode, decode, decodeE]
  | ldVxDt | ldDtVx | ldStVx | ldVxKey | addI | ldFont | ldBcd | storeRegs | loadRegs => simp [encode, decode, decodeF]
  | _ => simp [encode, decode]

/-- Settles O2, by the reserved words for a NOP and by its class and fields for every other instruction. -/
theorem decodeOfEncodeIsTheInstruction : Obligations.DecodeOfEncodeIsTheInstruction := fun _ => decode_encode

end Sys2Proof
end

section
/-!
PROOFS. The opcode map (spec R95) and the reserved regions (spec R96) against the decoder. One lemma per format says that
a word that selects a row is the word of an instruction of that row; the table of the 34 rows then cites it.
-/
namespace Sys2Proof

/-- Every word that selects the row is the word of an instruction that comes from it. -/
def RowCovers (r : OpcodeRow) : Prop := ∀ w, r.selects w = true → ∃ i, IsWordOf w i ∧ i.rowNumber = r.number

/-- The whole word is fixed. -/
theorem rowCovers_word {k : Nat} {v : Word} {i : Instr} (hi : IsWordOf v i ∧ i.rowNumber = k) :
    RowCovers ⟨k, v, 0xFFFF⟩ := by
  intro w hsel
  have hw : w = v := by simpa only [OpcodeRow.selects, and_mask_all, beq_iff_eq] using hsel
  exact ⟨i, hw ▸ hi.1, hi.2⟩

theorem classOf_of_selects {k : Nat} {v w : Word} {c : Nibble} (hv : wordNNN c 0 = v)
    (hsel : OpcodeRow.selects ⟨k, v, 0xF000⟩ w = true) : classOf w = c := by
  rw [OpcodeRow.selects, beq_iff_eq, and_mask_class, ← hv] at hsel
  exact (wordNNN_inj.mp hsel).1

/-- The class alone is fixed: format NNN. -/
theorem rowCovers_NNN {k : Nat} {v : Word} {c : Nibble} {f : Addr12 → Instr} (hv : wordNNN c 0 = v)
    (hf : ∀ a, IsWordOf (wordNNN c a) (f a) ∧ (f a).rowNumber = k) : RowCovers ⟨k, v, 0xF000⟩ := by
  intro w hsel
  have hw := hf (fieldNNN w)
  rw [wordNNN_of_class (classOf_of_selects hv hsel)] at hw
  exact ⟨_, hw⟩

/-- The class alone is fixed: format XKK. -/
theorem rowCovers_XKK {k : Nat} {v : Word} {c : Nibble} {f : Reg → Byte → Instr} (hv : wordNNN c 0 = v)
    (hf : ∀ x b, IsWordOf (wordXKK c x b) (f x b) ∧ (f x b).rowNumber = k) : RowCovers ⟨k, v, 0xF000⟩ := by
  intro w hsel
  have hw := hf (fieldX w) (fieldKK w)
  rw [wordXKK_of_class (classOf_of_selects hv hsel)] at hw
  exact ⟨_, hw⟩

/-- The class alone is fixed: format XYN. -/
theorem rowCovers_XYN {k : Nat} {v : Word} {c : Nibble} {f : Reg → Reg → Nibble → Instr} (hv : wordNNN c 0 = v)
    (hf : ∀ x y n, IsWordOf (wordXYN c x y n) (f x y n) ∧ (f x y n).rowNumber = k) : RowCovers ⟨k, v, 0xF000⟩ := by
  intro w hsel
  have hw := hf (fieldX w) (fieldY w) (fieldN w)
  rw [wordXYN_of_class (classOf_of_selects hv hsel)] at hw
  exact ⟨_, hw⟩

/-- The class and N are fixed: format XY. -/
theorem rowCovers_XY {k : Nat} {v : Word} {c n : Nibble} {f : Reg → Reg → Instr} (hv : wordXYN c 0 0 n = v)
    (hf : ∀ x y, IsWordOf (wordXYN c x y n) (f x y) ∧ (f x y).rowNumber = k) : RowCovers ⟨k, v, 0xF00F⟩ := by
  intro w hsel
  rw [OpcodeRow.selects, beq_iff_eq, and_mask_class_N, ← hv] at hsel
  obtain ⟨hc, -, -, hn⟩ := wordXYN_inj.mp hsel
  have hw := hf (fieldX w) (fieldY w)
  rw [wordXYN_of_class_N hc hn] at hw
  exact ⟨_, hw⟩

/-- The class and KK are fixed: format X. -/
theorem rowCovers_X {k : Nat} {v : Word} {c : Nibble} {b : Byte} {f : Reg → Instr} (hv : wordXKK c 0 b = v)
    (hf : ∀ x, IsWordOf (wordXKK c x b) (f x) ∧ (f x).rowNumber = k) : RowCovers ⟨k, v, 0xF0FF⟩ := by
  intro w hsel
  rw [OpcodeRow.selects, beq_iff_eq, and_mask_class_KK, ← hv] at hsel
  obtain ⟨hc, -, hb⟩ := wordXKK_inj.mp hsel
  have hw := hf (fieldX w)
  rw [wordXKK_of_class_KK hc hb] at hw
  exact ⟨_, hw⟩

/-- Each row of R95, in the order of its table, by its format. -/
theorem rowCovers_of_mem : ∀ r ∈ opcodeRows, RowCovers r := by
  simp only [opcodeRows, List.cons_append, List.nil_append, List.forall_mem_cons]
  exact ⟨rowCovers_word (i := .cls) ⟨⟨rfl, rfl⟩, rfl⟩,
    rowCovers_word (i := .ret) ⟨⟨rfl, rfl⟩, rfl⟩,
    rowCovers_NNN (f := .jp) (by decide) fun _ => ⟨⟨rfl, rfl⟩, rfl⟩,
    rowCovers_NNN (f := .call) (by decide) fun _ => ⟨⟨rfl, rfl⟩, rfl⟩,
    rowCovers_XKK (f := .seImm) (by decide) fun _ _ => ⟨⟨rfl, rfl⟩, rfl⟩,
    rowCovers_XKK (f := .sneImm) (by decide) fun _ _ => ⟨⟨rfl, rfl⟩, rfl⟩,
    rowCovers_XY (f := .seReg) (by decide) fun _ _ => ⟨⟨rfl, rfl⟩, rfl⟩,
    rowCovers_XY (f := .sneReg) (by decide) fun _ _ => ⟨⟨rfl, rfl⟩, rfl⟩,
    rowCovers_XKK (f := .ldImm) (by decide) fun _ _ => ⟨⟨rfl, rfl⟩, rfl⟩,
    rowCovers_XKK (f := .addImm) (by decide) fun _ _ => ⟨⟨rfl, rfl⟩, rfl⟩,
    rowCovers_XY (f := .ldReg) (by decide) fun _ _ => ⟨⟨rfl, rfl⟩, rfl⟩,
    rowCovers_XY (f := .orReg) (by decide) fun _ _ => ⟨⟨rfl, rfl⟩, rfl⟩,
    rowCovers_XY (f := .andReg) (by decide) fun _ _ => ⟨⟨rfl, rfl⟩, rfl⟩,
    rowCovers_XY (f := .xorReg) (by decide) fun _ _ => ⟨⟨rfl, rfl⟩, rfl⟩,
    rowCovers_XY (f := .addReg) (by decide) fun _ _ => ⟨⟨rfl, rfl⟩, rfl⟩,
    rowCovers_XY (f := .subReg) (by decide) fun _ _ => ⟨⟨rfl, rfl⟩, rfl⟩,
    rowCovers_XY (f := .shr) (by decide) fun _ _ => ⟨⟨rfl, rfl⟩, rfl⟩,
    rowCovers_XY (f := .subn) (by decide) fun _ _ => ⟨⟨rfl, rfl⟩, rfl⟩,
    rowCovers_XY (f := .shl) (by decide) fun _ _ => ⟨⟨rfl, rfl⟩, rfl⟩,
    rowCovers_NNN (f := .ldI) (by decide) fun _ => ⟨⟨rfl, rfl⟩, rfl⟩,
    rowCovers_NNN (f := .jpV0) (by decide) fun _ => ⟨⟨rfl, rfl⟩, rfl⟩,
    rowCovers_XKK (f := .rnd) (by decide) fun _ _ => ⟨⟨rfl, rfl⟩, rfl⟩,
    rowCovers_XYN (f := .drw) (by decide) fun _ _ _ => ⟨⟨rfl, rfl⟩, rfl⟩,
    rowCovers_X (f := .skp) (by decide) fun _ => ⟨⟨rfl, rfl⟩, rfl⟩,
    rowCovers_X (f := .sknp) (by decide) fun _ => ⟨⟨rfl, rfl⟩, rfl⟩,
    rowCovers_X (f := .ldVxDt) (by decide) fun _ => ⟨⟨rfl, rfl⟩, rfl⟩,
    rowCovers_X (f := .ldDtVx) (by decide) fun _ => ⟨⟨rfl, rfl⟩, rfl⟩,
    rowCovers_X (f := .ldStVx) (by decide) fun _ => ⟨⟨rfl, rfl⟩, rfl⟩,
    rowCovers_X (f := .ldVxKey) (by decide) fun _ => ⟨⟨rfl, rfl⟩, rfl⟩,
    rowCovers_X (f := .addI) (by decide) fun _ => ⟨⟨rfl, rfl⟩, rfl⟩,
    rowCovers_X (f := .ldFont) (by decide) fun _ => ⟨⟨rfl, rfl⟩, rfl⟩,
    rowCovers_X (f := .ldBcd) (by decide) fun _ => ⟨⟨rfl, rfl⟩, rfl⟩,
    rowCovers_X (f := .storeRegs) (by decide) fun _ => ⟨⟨rfl, rfl⟩, rfl⟩,
    rowCovers_X (f := .loadRegs) (by decide) fun _ => ⟨⟨rfl, rfl⟩, rfl⟩,
    fun _ h => absurd h List.not_mem_nil⟩

open Laws.EncodeSelectsRow in
/-- The word of an instruction selects the instruction's row, whichever instruction it is (R95). -/
theorem encode_selects_row (i : Instr) : Statement i := by
  cases i with
  | cls => exact cls
  | ret => exact ret
  | jp nnn => exact jp nnn
  | call nnn => exact call nnn
  | seImm x kk => exact seImm x kk
  | sneImm x kk => exact sneImm x kk
  | seReg x y => exact seReg x y
  | sneReg x y => exact sneReg x y
  | ldImm x kk => exact ldImm x kk
  | addImm x kk => exact addImm x kk
  | ldReg x y => exact ldReg x y
  | orReg x y => exact orReg x y
  | andReg x y => exact andReg x y
  | xorReg x y => exact xorReg x y
  | addReg x y => exact addReg x y
  | subReg x y => exact subReg x y
  | shr x y => exact shr x y
  | subn x y => exact subn x y
  | shl x y => exact shl x y
  | ldI nnn => exact ldI nnn
  | jpV0 nnn => exact jpV0 nnn
  | rnd x kk => exact rnd x kk
  | drw x y n => exact drw x y n
  | skp x => exact skp x
  | sknp x => exact sknp x
  | ldVxDt x => exact ldVxDt x
  | ldDtVx x => exact ldDtVx x
  | ldStVx x => exact ldStVx x
  | ldVxKey x => exact ldVxKey x
  | addI x => exact addI x
  | ldFont x => exact ldFont x
  | ldBcd x => exact ldBcd x
  | storeRegs x => exact storeRegs x
  | loadRegs x => exact loadRegs x
  | nop w => exact nop w

/-- Settles O4: a word that selects a row is the word of an instruction of that row, and so decodes to it; the other
way, a word is the word of what it decodes to, which selects that instruction's row. -/
theorem wordSelectsTheRowOfItsInstruction : Obligations.WordSelectsTheRowOfItsInstruction := by
  intro w r hr
  constructor
  · intro hsel
    obtain ⟨i, ⟨hwf, rfl⟩, hnum⟩ := rowCovers_of_mem r hr w hsel
    rw [decode_encode hwf, hnum]
  · intro hnum
    have hsel := encode_selects_row (decode w) r hr hnum.symm
    rwa [encode_decode] at hsel

/-- Every instruction but NOP comes from a row of the map. -/
theorem exists_row_of_rowNumber_ne_zero {i : Instr} (hi : i.rowNumber ≠ 0) :
    ∃ r ∈ opcodeRows, r.number = i.rowNumber := by
  have hall : ∀ n < 35, n ≠ 0 → ∃ r ∈ opcodeRows, r.number = n := by decide
  have hlt : i.rowNumber < 35 := by cases i <;> simp [Instr.rowNumber]
  exact hall i.rowNumber hlt hi

/-- The words that decode to no instruction of the map are the reserved ones. -/
theorem rowNumber_decode_eq_zero_iff (w : Word) : (decode w).rowNumber = 0 ↔ reservedWord w = true := by
  rw [← decode_eq_nop_iff]
  constructor
  · intro hzero
    cases hd : decode w with
    | nop w' => rw [decode_eq_nop hd]
    | _ => simp [hd, Instr.rowNumber] at hzero
  · intro hnop
    rw [hnop, Instr.rowNumber]

/-- Settles O5: a word is reserved when it decodes to an instruction of no row, and a word selects the rows that have
its instruction's number (O4). -/
theorem reservedWordsAndNoOthersAreNop : Obligations.ReservedWordsAndNoOthersAreNop := by
  refine fun w => ⟨(decode_eq_nop_iff w).symm, ?_⟩
  rw [← Bool.not_eq_true, ← rowNumber_decode_eq_zero_iff]
  constructor
  · intro hne
    obtain ⟨r, hr, hnum⟩ := exists_row_of_rowNumber_ne_zero hne
    exact ⟨r, hr, (wordSelectsTheRowOfItsInstruction w r hr).mpr hnum.symm⟩
  · rintro ⟨r, hr, hsel⟩
    have hpos : ∀ q ∈ opcodeRows, q.number ≠ 0 := by decide
    rw [(wordSelectsTheRowOfItsInstruction w r hr).mp hsel]
    exact hpos r hr

/-- Settles O1: closed words, each decoded by evaluation. -/
theorem writtenOutWordsDecode : Obligations.WrittenOutWordsDecode := by
  unfold Obligations.WrittenOutWordsDecode
  decide

end Sys2Proof
end

section
/-!
PROOFS. The instructions whose equation no file above states (spec R142, R168 to R172, R191 to R195, R211, R221 to R223),
and the laws of "nothing else changes": it composes, and it may name more than it needs.
-/
namespace Sys2Proof.Machine

/-- `2NNN` pushes PC and goes to NNN (R142). -/
@[simp] theorem exec_call (nnn : Addr12) (s : State) : exec (.call nnn) s = .next (s.pushPc.jumpTo (addrOf nnn)) := rfl

/-- `8XY4` writes the sum and the carry (R168). -/
@[simp] theorem exec_addReg (x y : Reg) (s : State) : exec (.addReg x y) s =
    .next (s.setVFlag x (s.getV x + s.getV y) (carryOut (s.getV x) (s.getV y))).advance := rfl

/-- `8XY5` writes VX - VY and the flag (R169). -/
@[simp] theorem exec_subReg (x y : Reg) (s : State) : exec (.subReg x y) s =
    .next (s.setVFlag x (s.getV x - s.getV y) (noBorrow (s.getV x) (s.getV y))).advance := rfl

/-- `8XY6` halves VX, whatever Y is (R170). -/
@[simp] theorem exec_shr (x y : Reg) (s : State) : exec (.shr x y) s =
    .next (s.setVFlag x (s.getV x >>> 1) (shiftOutLow (s.getV x))).advance := rfl

/-- `8XY7` writes VY - VX and the flag (R171). -/
@[simp] theorem exec_subn (x y : Reg) (s : State) : exec (.subn x y) s =
    .next (s.setVFlag x (s.getV y - s.getV x) (noBorrow (s.getV y) (s.getV x))).advance := rfl

/-- `8XYE` doubles VX, whatever Y is (R172). -/
@[simp] theorem exec_shl (x y : Reg) (s : State) : exec (.shl x y) s =
    .next (s.setVFlag x (s.getV x <<< 1) (shiftOutHigh (s.getV x))).advance := rfl

/-- `FX1E` adds VX to I and writes the carry (R191). -/
@[simp] theorem exec_addI (x : Reg) (s : State) : exec (.addI x) s =
    .next ({ s with i := s.i + byteToWord (s.getV x) }.setVF (indexCarry s.i (s.getV x))).advance := rfl

/-- `FX29` points I at the glyph numbered VX (R192). -/
@[simp] theorem exec_ldFont (x : Reg) (s : State) :
    exec (.ldFont x) s = .next { s with i := glyphAddr (s.getV x) }.advance := rfl

/-- `FX33` stores the digits of VX at I (R193). -/
@[simp] theorem exec_ldBcd (x : Reg) (s : State) : exec (.ldBcd x) s =
    .next { s with mem := memWriteBytes s.mem s.i.toNat (decimalDigits (s.getV x)) }.advance := rfl

/-- `FX55` stores V0 to VX at I (R194). -/
@[simp] theorem exec_storeRegs (x : Reg) (s : State) : exec (.storeRegs x) s =
    .next { s with mem := memWriteBytes s.mem s.i.toNat (s.block x) }.advance := rfl

/-- `FX65` loads V0 to VX from I (R195). -/
@[simp] theorem exec_loadRegs (x : Reg) (s : State) : exec (.loadRegs x) s =
    .next { s with v := loadBlock s.mem s.i.toNat (x + 1) s.v }.advance := rfl

/-- `DXYN` draws the sprite, raises the draw flag and writes the collision (R211, R213). -/
@[simp] theorem exec_drw (x y : Reg) (n : Nibble) (s : State) : exec (.drw x y n) s =
    .next ({ s with fb := (s.sprite x y n).fb, draw := true }.setVF (s.sprite x y n).hit).advance := rfl

/-- `EX9E` skips when the key numbered VX is down (R221). -/
@[simp] theorem exec_skp (x : Reg) (s : State) : exec (.skp x) s = .next (s.skipIf (s.key (s.getV x))) := rfl

/-- `EXA1` skips when the key numbered VX is up (R222). -/
@[simp] theorem exec_sknp (x : Reg) (s : State) : exec (.sknp x) s = .next (s.skipIf (!s.key (s.getV x))) := rfl

/-- `FX0A` with a key down loads the least one (R223). -/
theorem exec_ldVxKey_of_some (x : Reg) {s : State} {k : Nat} (h : s.leastKey = some k) :
    exec (.ldVxKey x) s = .next (s.setV x (BitVec.ofNat 8 k)).advance := by
  simp only [exec, execLdVxKey, h]

/-- `FX0A` with no key down changes nothing (R223). -/
theorem exec_ldVxKey_of_none (x : Reg) {s : State} (h : s.leastKey = none) : exec (.ldVxKey x) s = .next s := by
  simp only [exec, execLdVxKey, h]

/-- What `FX0A` can do: load a key that is down, or leave the state as it is (R223). -/
theorem exec_ldVxKey_cases (x : Reg) (s : State) :
    (∃ k, s.leastKey = some k ∧ exec (.ldVxKey x) s = .next (s.setV x (BitVec.ofNat 8 k)).advance) ∨
      (s.leastKey = none ∧ exec (.ldVxKey x) s = .next s) := by
  cases h : s.leastKey with
  | some k => exact .inl ⟨k, rfl, exec_ldVxKey_of_some x h⟩
  | none => exact .inr ⟨rfl, exec_ldVxKey_of_none x h⟩

/-- Every instruction has a next state (R240). -/
theorem exec_total (i : Instr) (s : State) : ∃ t, exec i s = .next t := by
  cases i <;> exact ⟨_, rfl⟩

/-! ### "Nothing else changes" (`ChangesOnly`) -/

theorem Piece.same.trans {p : Piece} {s t u : State} (h : p.same s t) (h' : p.same t u) : p.same s u := by
  cases p <;> exact Eq.trans h' h

theorem ChangesOnly.trans {ps : List Piece} {s t u : State} (h : ChangesOnly ps s t) (h' : ChangesOnly ps t u) :
    ChangesOnly ps s u := fun p hp => (h p hp).trans (h' p hp)

theorem ChangesOnly.mono {ps qs : List Piece} {s t : State} (h : ChangesOnly ps s t) (hsub : ps ⊆ qs) :
    ChangesOnly qs s t := fun p hp => h p (mt (@hsub p) hp)

end Sys2Proof.Machine
end

section
/-!
PROOFS. The step (spec R6, R120, R121): it is always the next event, a Cycle where none is queued; what a Cycle can do is
said once, for the runs (R128, R240) and for every property that each step keeps.
-/
namespace Sys2Proof.Machine

/-- The event that the next step is: the first queued one, or a Cycle with the arguments that the host holds. -/
def State.nextEvent (s : State) : Event := s.pending.headD (.cycle s.inputs)

/-- The state that the next event acts on: it is off the queue. -/
def State.dequeued (s : State) : State := { s with pending := s.pending.tail }

theorem step_eq_runEvent (s : State) : step s = runEvent s.nextEvent s.dequeued := by
  cases h : s.pending with
  | nil =>
    have hsame : { s with pending := [] } = s := by rw [← h]
    rw [step_of_nil h, State.nextEvent, State.dequeued, h, List.headD_nil, List.tail_nil, hsame]
    rfl
  | cons e rest => rw [step_of_cons h, State.nextEvent, State.dequeued, h, List.headD_cons, List.tail_cons]

/-- What a Cycle gives: the state itself when paused, else what the instruction at PC gives; then the arguments are used
up (R120, R121). -/
theorem cycleEvent_cases {s t : State} (h : cycleEvent s = .next t) :
    ∃ u, t = u.freshInputs ∧ (u = s ∨ exec s.fetched s = .next u) := by
  cases hp : s.inputs.paused with
  | true =>
    rw [cycleEvent_of_paused hp] at h
    cases h
    exact ⟨s, rfl, .inl rfl⟩
  | false =>
    obtain ⟨u, hu⟩ := exec_total s.fetched s
    rw [cycleEvent_of_running hp, hu, onNext_next] at h
    cases h
    exact ⟨u, rfl, .inr hu⟩

/-- A Cycle has a next state: paused or not, no instruction stops it (R240). -/
theorem cycleEvent_total (s : State) : ∃ t, cycleEvent s = .next t := by
  cases hp : s.inputs.paused with
  | true => exact ⟨_, cycleEvent_of_paused hp⟩
  | false =>
    obtain ⟨u, hu⟩ := exec_total s.fetched s
    exact ⟨u.freshInputs, by rw [cycleEvent_of_running hp, hu, onNext_next]⟩

/-- Every step has a next state, whichever event it is (R240). -/
theorem step_total (s : State) : ∃ t, step s = .next t := by
  rw [step_eq_runEvent]
  cases s.nextEvent with
  | cycle args => exact cycleEvent_total _
  | timerTick | reset | loadRom | drawAck => exact ⟨_, rfl⟩

/-- Settles O53, by the totality of every instruction and of every event. -/
theorem everyStateHasANextState : Obligations.EveryStateHasANextState := ⟨exec_total, step_total⟩

/-- A run that begins with a step goes on from where the step leads. -/
theorem run_succ_of_step {s t : State} (k : Nat) (h : step s = .next t) : core.run (k + 1) s = core.run k t := by
  have hstep : core.step s = .next t := h
  simp only [Host.Core.run, hstep]

/-- Settles O54, by induction on the number of steps. -/
theorem noRunEverStops : Obligations.NoRunEverStops := by
  intro n
  induction n with
  | zero => exact fun s => ⟨s, rfl⟩
  | succ n ih =>
    intro s
    obtain ⟨t, ht⟩ := step_total s
    obtain ⟨u, hu⟩ := ih t
    exact ⟨u, (run_succ_of_step n ht).trans hu⟩

end Sys2Proof.Machine
end

section
/-!
PROOFS. Which instructions write which elements (spec 10_state.md, R21): all but eleven leave everything as it is but
registers and PC. From this follow the statements about single elements, and the invariant (R35).
-/
namespace Sys2Proof.Machine

/-- The instructions that write more of the block than registers and PC. -/
def writesControl (i : Instr) : Bool :=
  match i with
  | .cls | .ret | .call _ | .drw _ _ _ | .ldI _ | .addI _ | .ldFont _ | .ldBcd _ | .storeRegs _ | .ldDtVx _
  | .ldStVx _ => true
  | _ => false

/-- The elements of the block that are neither a register nor PC are the same in both states. -/
structure SameControl (s t : State) : Prop where
  i : t.i = s.i
  stack : t.stack = s.stack
  sp : t.sp = s.sp
  dt : t.dt = s.dt
  st : t.st = s.st
  mem : t.mem = s.mem
  fb : t.fb = s.fb
  draw : t.draw = s.draw

theorem exec_sameControl {i : Instr} {s t : State} (hi : writesControl i = false) (h : exec i s = .next t) :
    SameControl s t := by
  cases i with
  | cls | ret | call | drw | ldI | addI | ldFont | ldBcd | storeRegs | ldDtVx | ldStVx => cases hi
  | ldVxKey x =>
    obtain ⟨k, -, hk⟩ | ⟨-, hk⟩ := exec_ldVxKey_cases x s
    · cases h.symm.trans hk; constructor <;> rfl
    · cases h.symm.trans hk; constructor <;> rfl
  | _ => cases h; constructor <;> rfl

/-- Settles O38: the instructions that write control elements, one by one; every other keeps them all. -/
theorem controlStateChangesOnlyByItsInstructions : Obligations.ControlStateChangesOnlyByItsInstructions := by
  intro i s t h
  cases hi : writesControl i with
  | false =>
    obtain ⟨hi, hstack, hsp, hdt, hst, hmem, hfb, hdraw⟩ := exec_sameControl hi h
    simp [hi, hstack, hsp, hdt, hst, hmem, hfb, hdraw]
  | true =>
    cases i with
    | cls | ret | call | drw | ldI | addI | ldFont | ldBcd | storeRegs | ldDtVx | ldStVx => cases h; simp
    | _ => cases hi

/-- The display after an instruction: as it was, or with the draw flag raised (R31). -/
theorem exec_display_cases {i : Instr} {s t : State} (h : exec i s = .next t) :
    (t.fb = s.fb ∧ t.draw = s.draw) ∨ t.draw = true := by
  cases hi : writesControl i with
  | false => exact .inl ⟨(exec_sameControl hi h).fb, (exec_sameControl hi h).draw⟩
  | true =>
    cases i with
    | cls | drw => cases h; exact .inr rfl
    | ret | call | ldI | addI | ldFont | ldBcd | storeRegs | ldDtVx | ldStVx => cases h; left; simp
    | _ => cases hi

/-- A LoadRom leaves the display alone or raises the draw flag, as the Reset in it does (R280, R282). -/
theorem loadRomEvent_display_cases (s : State) (bytes : List Byte) :
    ((s.loadRomEvent bytes).fb = s.fb ∧ (s.loadRomEvent bytes).draw = s.draw) ∨ (s.loadRomEvent bytes).draw = true := by
  unfold State.loadRomEvent
  rcases Nat.lt_or_ge 3584 bytes.length with hlong | hfits
  · rw [loadRom_of_gt hlong]; exact .inl ⟨rfl, rfl⟩
  · rw [loadRom_of_le hfits]; exact .inr rfl

/-- The display after an event: as it was, with the draw flag raised, or with the flag cleared by DrawAck (R31). -/
theorem runEvent_display_cases {e : Event} {s t : State} (h : runEvent e s = .next t) :
    (t.fb = s.fb ∧ t.draw = s.draw) ∨ t.draw = true ∨ (t.fb = s.fb ∧ e = .drawAck) := by
  cases e with
  | cycle args =>
    obtain ⟨u, rfl, rfl | hu⟩ := cycleEvent_cases h
    · exact .inl ⟨rfl, rfl⟩
    · obtain hsame | hraised := exec_display_cases hu
      · exact .inl hsame
      · exact .inr (.inl hraised)
  | timerTick => cases h; exact .inl ⟨rfl, rfl⟩
  | reset => cases h; exact .inr (.inl rfl)
  | loadRom bytes =>
    cases h
    obtain hsame | hraised := loadRomEvent_display_cases s bytes
    · exact .inl hsame
    · exact .inr (.inl hraised)
  | drawAck => cases h; exact .inr (.inr ⟨rfl, rfl⟩)

/-- DrawAck is the next event only where it is queued. -/
theorem pending_of_nextEvent_drawAck {s : State} (h : s.nextEvent = .drawAck) : ∃ rest, s.pending = .drawAck :: rest := by
  unfold State.nextEvent at h
  cases hp : s.pending with
  | nil => rw [hp] at h; cases h
  | cons e rest => rw [hp, List.headD_cons] at h; exact ⟨rest, by rw [h]⟩

/-- Settles O42, by the three things an event can do to the display. -/
theorem drawFlagFollowsEveryChangeUntilAcknowledged : Obligations.DrawFlagFollowsEveryChangeUntilAcknowledged := by
  intro s t h
  rw [step_eq_runEvent] at h
  obtain ⟨hfb, hdraw⟩ | hraised | ⟨hfb, hack⟩ := runEvent_display_cases h
  · exact ⟨fun hne => absurd hfb hne, fun hup _ => hdraw.trans hup⟩
  · exact ⟨fun _ => hraised, fun _ _ => hraised⟩
  · obtain ⟨rest, hp⟩ := pending_of_nextEvent_drawAck hack
    exact ⟨fun hne => absurd hfb hne, fun _ hno => absurd hp (hno rest)⟩

/-! ### VF (R21) -/

/-- A register that reads otherwise after a register write is the one written. -/
theorem eq_of_getV_setV_ne {s : State} {r q : Reg} {b : Byte} (h : (s.setV r b).getV q ≠ s.getV q) : r = q := by
  by_contra hne
  exact h (getV_setV_of_ne s b (Ne.symm hne))

/-- The registers after `FX65`: V0 to VX from memory, those above as they were (R195). -/
theorem getV_loadBlock (s : State) (x q : Reg) :
    State.getV { s with v := loadBlock s.mem s.i.toNat (x + 1) s.v } q =
      if q ≤ x then memRead s.mem (s.i.toNat + q.val) else s.getV q := by
  have hle : q.val < x.val + 1 ↔ q ≤ x := Nat.lt_succ_iff
  simp only [State.getV, Fin.getElem_fin, loadBlock_getElem, hle]

/-- Settles O28: an instruction that writes one register and no flag changes VF only as that register, FX65 only when
its block reaches VF. -/
theorem vfChangesOnlyByFlagOrDestination : Obligations.VfChangesOnlyByFlagOrDestination := by
  intro i s t h hne
  cases i with
  | addReg | subReg | shr | subn | shl | drw | addI => trivial
  | ldImm x | addImm x | ldReg x | orReg x | andReg x | xorReg x | rnd x | ldVxDt x =>
    cases h
    exact eq_of_getV_setV_ne hne
  | ldVxKey x =>
    obtain ⟨k, -, hk⟩ | ⟨-, hk⟩ := exec_ldVxKey_cases x s
    · cases h.symm.trans hk; exact eq_of_getV_setV_ne hne
    · cases h.symm.trans hk; exact absurd rfl hne
  | loadRegs x =>
    cases h
    by_contra hx
    have hlt : ¬ (15 : Reg) ≤ x := fun hle => hx (le_antisymm (Fin.le_last x) hle)
    exact hne ((getV_loadBlock s x 15).trans (if_neg hlt))
  | ret => cases h; exact hne (getV_popPc s 15)
  | call nnn => cases h; exact hne (getV_pushPc s 15)
  | _ => cases h; exact hne rfl

/-! ### The invariant (R35, R142) -/

/-- The invariant speaks of SP, memory and the stack only. -/
theorem State.Inv.congr {s t : State} (h : s.Inv) (hsp : t.sp = s.sp) (hmem : t.mem = s.mem)
    (hstack : t.stack = s.stack) : t.Inv := by
  rw [State.Inv, hsp, hmem, hstack]
  exact h

/-- Canonical memory is all the invariant asks of a store (R71). -/
theorem State.Inv.setMem {s : State} {m : Memory} (h : s.Inv) (hm : m.wf = true) : State.Inv { s with mem := m } :=
  ⟨h.1, hm, h.2.2⟩

/-- A push keeps the invariant where a CALL can have been fetched (R142). -/
theorem pushPc_inv {s : State} (h : s.Inv) (hpc : s.pc.toNat ≤ 0xFFE) : s.pushPc.Inv := by
  rcases Nat.lt_or_ge s.sp.toNat 16 with hroom | hfull
  · obtain ⟨hsp, hentry⟩ := pushPc_of_lt s hroom
    obtain ⟨-, hmem, hstack⟩ := h
    refine ⟨by omega, by rw [State.pushPc_mem]; exact hmem, fun k => ?_⟩
    rw [hentry]
    split
    · exact hpc
    · exact hstack k
  · rw [pushPc_of_ge s hfull]
    exact h

/-- A pop keeps the invariant: SP goes down and the stack stays (R140). -/
theorem popPc_inv {s : State} (h : s.Inv) : s.popPc.Inv := by
  rcases Nat.eq_zero_or_pos s.sp.toNat with hzero | hpos
  · rw [popPc_of_zero s hzero]
    exact h
  · obtain ⟨hsp, hmem, hstack⟩ := h
    have hdown := (popPc_of_pos s hpos).1
    exact ⟨by omega, by rw [State.popPc_mem]; exact hmem, by rw [State.popPc_stack]; exact hstack⟩

/-- Every instruction keeps the invariant; a CALL where it can have been fetched. -/
theorem exec_inv {i : Instr} {s t : State} (hinv : s.Inv) (h : exec i s = .next t)
    (hcall : ∀ nnn, i = .call nnn → s.pc.toNat ≤ 0xFFE) : t.Inv := by
  cases hi : writesControl i with
  | false =>
    have hsame := exec_sameControl hi h
    exact hinv.congr hsame.sp hsame.mem hsame.stack
  | true =>
    cases i with
    | call nnn => cases h; exact pushPc_inv hinv (hcall nnn rfl)
    | ret => cases h; exact popPc_inv hinv
    | ldBcd | storeRegs => cases h; exact hinv.setMem (memWriteBytes_wf _ _ hinv.2.1)
    | cls | drw | ldI | addI | ldFont | ldDtVx | ldStVx => cases h; exact hinv
    | _ => cases hi

/-- A CALL is fetched at 0xFFE or below: above it every fetch gives a NOP (R64). -/
theorem pc_le_of_fetched_call {s : State} {nnn : Addr12} (h : s.fetched = .call nnn) : s.pc.toNat ≤ 0xFFE := by
  by_contra hgt
  rw [State.fetched, State.fetchWord, memFetch_of_gt s.mem (by omega), decode_zero] at h
  cases h

theorem resetEvent_inv (s : State) : s.resetEvent.Inv := by
  have hsp : State.reset.sp.toNat ≤ 16 := by decide
  have hstack : ∀ k : Fin 16, State.reset.stack[k].toNat ≤ 0xFFE := by decide
  exact ⟨hsp, resetEvent_wf s, hstack⟩

theorem loadRomEvent_inv {s : State} (h : s.Inv) (bytes : List Byte) : (s.loadRomEvent bytes).Inv := by
  have hmem := loadRomEvent_wf bytes h.2.1
  unfold State.loadRomEvent at hmem ⊢
  rcases Nat.lt_or_ge 3584 bytes.length with hlong | hfits
  · rw [loadRom_of_gt hlong]; exact h
  · rw [loadRom_of_le hfits] at hmem ⊢; exact (resetEvent_inv s).setMem hmem

/-- A Cycle keeps the invariant: what it executes was fetched at PC (R120). -/
theorem cycleEvent_inv {s t : State} (hinv : s.Inv) (h : cycleEvent s = .next t) : t.Inv := by
  obtain ⟨u, rfl, rfl | hu⟩ := cycleEvent_cases h
  · exact hinv
  · have hu' : u.Inv := exec_inv hinv hu fun _ hcall => pc_le_of_fetched_call hcall
    exact hu'

/-- Every event keeps the invariant. -/
theorem runEvent_inv {e : Event} {s t : State} (hinv : s.Inv) (h : runEvent e s = .next t) : t.Inv := by
  cases e with
  | cycle args => exact cycleEvent_inv (s := { s with inputs := args }) hinv h
  | timerTick | drawAck => cases h; exact hinv
  | reset => cases h; exact resetEvent_inv s
  | loadRom bytes => cases h; exact loadRomEvent_inv hinv bytes

/-- Settles O56: a step is an event, and every event keeps the invariant. -/
theorem everyStepKeepsTheInvariant : Obligations.EveryStepKeepsTheInvariant := by
  intro s t hinv h
  rw [step_eq_runEvent] at h
  exact runEvent_inv (s := s.dequeued) hinv h

/-- Settles O55: the state after reset is closed, and meets each bound by evaluation. -/
theorem theInvariantHoldsAtReset : Obligations.TheInvariantHoldsAtReset := resetEvent_inv State.reset

end Sys2Proof.Machine
end

section
/-!
PROOFS. The Cycle as a step, queued or not (spec R120 to R122, R128): the instruction at PC, a NOP above memory, and the
two Cycles that leave the block as it is.
-/
namespace Sys2Proof.Machine

theorem ChangesOnly.refl (ps : List Piece) (s : State) : ChangesOnly ps s s := fun p _ => by cases p <;> rfl

/-- The state in which a queued Cycle runs: its arguments are the inputs, and the rest of the queue is left. -/
def State.given (s : State) (args : Inputs) (rest : List Event) : State := { s with inputs := args, pending := rest }

theorem step_of_cycle {s : State} {args : Inputs} {rest : List Event} (h : s.pending = .cycle args :: rest) :
    step s = cycleEvent (s.given args rest) := step_of_cons h

theorem State.freshInputs_changesOnly (s : State) : ChangesOnly [.inputs, .drawn] s s.freshInputs := by
  intro p hp
  cases p with
  | inputs | drawn => simp at hp
  | _ => rfl

theorem State.given_changesOnly (s : State) (args : Inputs) (rest : List Event) :
    ChangesOnly [.pending, .inputs] s (s.given args rest) := by
  intro p hp
  cases p with
  | inputs | pending => simp at hp
  | _ => rfl

/-- What a Cycle with nothing queued changes: what its instruction does, and the model's inputs. -/
theorem changesOnly_freshInputs {ps : List Piece} {s t : State} (h : ChangesOnly ps s t) :
    ChangesOnly (ps ++ [.inputs, .drawn]) s t.freshInputs :=
  (h.mono (List.subset_append_left _ _)).trans (t.freshInputs_changesOnly.mono (List.subset_append_right _ _))

/-- What a queued Cycle changes: what its instruction does, the queue, and the model's inputs. -/
theorem changesOnly_given_freshInputs {ps : List Piece} {s t : State} {args : Inputs} {rest : List Event}
    (h : ChangesOnly ps (s.given args rest) t) : ChangesOnly (ps ++ [.pending, .inputs, .drawn]) s t.freshInputs :=
  ((s.given_changesOnly args rest).mono (by simp)).trans ((changesOnly_freshInputs h).mono (by simp))

/-- The instruction that a Cycle executes is the one that the two bytes at PC decode to (R64, R122). -/
theorem fetched_of_decodeBytes {s : State} {i : Instr} (hpc : s.pc.toNat ≤ 0xFFE)
    (h : decodeBytes [memRead s.mem s.pc.toNat, memRead s.mem (s.pc.toNat + 1)] = .ok (i, [])) : s.fetched = i := by
  rw [State.fetched, State.fetchWord, memFetch_of_le s.mem hpc]
  simpa [decodeBytes, wordOfBytes] using h

/-- Settles O7: the instruction fetched is the one that the two bytes decode to, and a queued Cycle fetches the same. -/
theorem stepRunsTheInstructionAtPc : Obligations.StepRunsTheInstructionAtPc := by
  refine ⟨?_, fun u => ⟨rfl, u.freshInputs_changesOnly⟩⟩
  rintro s i hi lo hpc rfl rfl hdec
  have hfetched : s.fetched = i := fetched_of_decodeBytes hpc hdec
  refine ⟨fun hp hrun => ?_, fun args rest hp hrun => ?_⟩
  · rw [step_of_nil hp, cycleEvent_of_running hrun, hfetched]
  · have hgiven : (s.given args rest).fetched = i := hfetched
    rw [step_of_cycle hp, cycleEvent_of_running hrun, hgiven]
    rfl

/-- A running Cycle above memory is a NOP (R64, R125). -/
theorem cycleEvent_above_memory {s : State} (hpc : 0xFFF ≤ s.pc.toNat) (hrun : s.inputs.paused = false) :
    cycleEvent s = .next s.advance.freshInputs := by
  have hnop : s.fetched = .nop 0 := by
    rw [State.fetched, State.fetchWord, memFetch_of_gt s.mem (by omega), decode_zero]
  rw [cycleEvent_of_running hrun, hnop, exec_nop, onNext_next]

/-- Settles O8: above memory the Cycle is the default advance alone, queued or not. -/
theorem stepAboveMemoryIsNop : Obligations.StepAboveMemoryIsNop := by
  intro s hpc
  refine ⟨fun hp hrun => ?_, fun args rest hp hrun => ?_⟩
  · exact ⟨_, (step_of_nil hp).trans (cycleEvent_above_memory hpc hrun), s.advance_pcAdvanced,
      changesOnly_freshInputs s.advance_changesOnly_pc⟩
  · exact ⟨_, (step_of_cycle hp).trans (cycleEvent_above_memory (s := s.given args rest) hpc hrun), rfl,
      s.advance_pcAdvanced, changesOnly_given_freshInputs (s.given args rest).advance_changesOnly_pc⟩

/-- A Cycle with nothing queued that gives the state back but for its inputs. -/
theorem idle_step_of_nil {s : State} (hp : s.pending = []) (hidle : cycleEvent s = .next s.freshInputs) :
    ∃ t, step s = .next t ∧ ChangesOnly [.inputs, .drawn] s t :=
  ⟨_, (step_of_nil hp).trans hidle, s.freshInputs_changesOnly⟩

/-- A queued Cycle that gives the state back but for the queue and its inputs. -/
theorem idle_step_of_cycle {s : State} {args : Inputs} {rest : List Event} (hp : s.pending = .cycle args :: rest)
    (hidle : cycleEvent (s.given args rest) = .next (s.given args rest).freshInputs) :
    ∃ t, step s = .next t ∧ t.pending = rest ∧ ChangesOnly [.pending, .inputs, .drawn] s t :=
  ⟨_, (step_of_cycle hp).trans hidle, rfl, changesOnly_given_freshInputs (ChangesOnly.refl [] _)⟩

/-- Settles O9: a paused Cycle is idle. -/
theorem pausedCycleChangesNothing : Obligations.PausedCycleChangesNothing := fun _ =>
  ⟨fun hp hpaused => idle_step_of_nil hp (cycleEvent_of_paused hpaused),
    fun _ _ hp hpaused => idle_step_of_cycle hp (cycleEvent_of_paused hpaused)⟩

/-- A jump to its own address gives the state itself (R128, R141). -/
theorem cycleEvent_of_jump_to_self {s : State} {nnn : Addr12} (hpc : s.pc.toNat = nnn.toNat)
    (hjp : s.fetched = .jp nnn) (hrun : s.inputs.paused = false) : cycleEvent s = .next s.freshInputs := by
  have hself : addrOf nnn = s.pc := BitVec.eq_of_toNat_eq ((addrOf_toNat nnn).trans hpc.symm)
  rw [cycleEvent_of_running hrun, hjp, exec_jp, onNext_next, hself]
  rfl

/-- Settles O13: a Cycle at a jump to itself is idle. -/
theorem jumpToSelfIsAFixedPoint : Obligations.JumpToSelfIsAFixedPoint := fun s _ hpc hjp =>
  ⟨fun hp hrun => idle_step_of_nil hp (cycleEvent_of_jump_to_self hpc hjp hrun),
    fun args rest hp hrun => idle_step_of_cycle hp
      (cycleEvent_of_jump_to_self (s := s.given args rest) hpc hjp hrun)⟩

end Sys2Proof.Machine
end

section
/-!
PROOFS. The events other than Cycle (spec R248, R251, R280 to R282).
-/
namespace Sys2Proof.Machine

/-- A timer counts down to 0 and stays there (R248). -/
theorem tickDown_toNat (b : Byte) : (tickDown b).toNat = b.toNat - 1 := by
  unfold tickDown
  split
  · next hzero => rw [hzero]; rfl
  · next hne =>
    have hpos : b.toNat ≠ 0 := fun h => hne (BitVec.eq_of_toNat_eq h)
    have hlt := b.isLt
    rw [BitVec.toNat_sub]
    simp only [BitVec.ofNat_eq_ofNat, BitVec.toNat_ofNat]
    omega

/-- Settles O46, by the count of each timer. -/
theorem timerTickCountsBothTimersDown : Obligations.TimerTickCountsBothTimersDown := by
  intro s rest hp
  refine ⟨_, step_of_cons hp, rfl, tickDown_toNat s.dt, tickDown_toNat s.st, fun p hnot => ?_⟩
  cases p with
  | dt | st | pending => simp at hnot
  | _ => rfl

/-- Settles O47, by induction on the number of ticks. -/
theorem timersAfterTicksAreTheDifference : Obligations.TimersAfterTicksAreTheDifference := by
  intro k
  induction k with
  | zero => exact fun s rest hp => ⟨s, rfl, hp, rfl, rfl, ChangesOnly.refl _ s⟩
  | succ k ih =>
    intro s rest hp
    obtain ⟨t, hstep, hpt, hdt, hst, hframe⟩ := timerTickCountsBothTimersDown s _ hp
    obtain ⟨u, hrun, hpu, hdu, hsu, hframe'⟩ := ih t rest hpt
    exact ⟨u, (run_succ_of_step k hstep).trans hrun, hpu, by omega, by omega, hframe.trans hframe'⟩

/-- Settles O49: DrawAck writes the draw flag alone. -/
theorem drawAckClearsTheDrawFlag : Obligations.DrawAckClearsTheDrawFlag := by
  intro s rest hp
  refine ⟨_, step_of_cons hp, rfl, rfl, fun p hnot => ?_⟩
  cases p with
  | draw | pending => simp at hnot
  | _ => rfl

/-- Memory after reset: the font's 80 bytes, then zeros (R28, R280). -/
theorem memRead_reset (a : Nat) : memRead State.reset.mem a = if a < 80 then Config.font.getD a 0 else 0 := by
  have hlen : Config.font.length = 80 := rfl
  have hread : memRead State.reset.mem a = if a ≤ 0xFFF then Config.font.getD a 0 else 0 := rfl
  rw [hread]
  by_cases hfont : a < 80
  · rw [if_pos hfont, if_pos (by omega)]
  · rw [if_neg hfont, List.getD_eq_default _ _ (by omega), ite_self]

theorem getV_reset (r : Reg) : State.reset.getV r = 0 := by simp [State.getV, State.reset]

/-- Settles O51: every element but memory is a constant; memory is the font and zeros. -/
theorem resetStateHasTheResetValues : Obligations.ResetStateHasTheResetValues :=
  ⟨getV_reset, rfl, rfl, fun k => by simp [State.reset], rfl, rfl, rfl, rfl, cell_blank, memRead_reset⟩

/-- Settles O50: what a Reset event leaves of the block is the state after reset (O51). -/
theorem resetEventLeavesTheResetValues : Obligations.ResetEventLeavesTheResetValues := by
  intro s rest hp
  obtain ⟨hv, hpc, hi, hstack, hsp, hdt, hst, hdraw, hfb, hmem⟩ := resetStateHasTheResetValues
  exact ⟨_, step_of_cons hp, hv, hstack, hsp, hi, hdt, hst, hfb, hpc, hdraw, hmem, rfl, rfl, rfl, rfl⟩

theorem loadRomEvent_of_le {s : State} {bytes : List Byte} (h : bytes.length ≤ 3584) : s.loadRomEvent bytes =
    { s.resetEvent with mem := memWriteBytes State.reset.mem 0x200 bytes, lastLoad := some .ok } := by
  rw [State.loadRomEvent, loadRom_of_le h]
  rfl

theorem loadRomEvent_of_gt {s : State} {bytes : List Byte} (h : 3584 < bytes.length) :
    s.loadRomEvent bytes = { s with lastLoad := some .oversizeRom } := by
  rw [State.loadRomEvent, loadRom_of_gt h]

/-- Settles O52, by the two sizes: the ROM read back over the reset memory, or the state with the report alone. -/
theorem loadRomResetsAndCopiesOrRefuses : Obligations.LoadRomResetsAndCopiesOrRefuses := by
  intro s bytes rest hp
  refine ⟨_, step_of_cons hp, ?_⟩
  rcases Nat.lt_or_ge 3584 bytes.length with hlong | hfits
  · rw [loadRomEvent_of_gt hlong]
    refine ⟨rfl, fun hle => absurd hle hlong.not_ge, fun _ => ⟨rfl, rfl, fun p hnot => ?_⟩⟩
    cases p with
    | pending | lastLoad => simp at hnot
    | _ => rfl
  · rw [loadRomEvent_of_le hfits]
    have hread := memRead_memWriteBytes (resetEvent_wf s) 0x200 bytes
    refine ⟨rfl, fun _ => ⟨rfl, fun k hk => ?_, fun a ha => ?_, fun p hmem hnot => ?_⟩,
      fun hlong => absurd hfits hlong.not_ge⟩
    · refine (hread (0x200 + k)).trans ?_
      rw [if_pos (by omega), Nat.add_sub_cancel_left]
    · exact (hread a).trans (if_neg (by omega))
    · cases p with
      | mem a => exact absurd rfl (hmem a)
      | inputs | pending | lastLoad | drawn => simp at hnot
      | _ => rfl

end Sys2Proof.Machine
end

section
/-!
PROOFS. What an instruction does not look at (spec R127, R249): the update of an element that it neither reads nor writes
may come before it or after it.
-/
namespace Sys2Proof.Machine

theorem pushPc_setInputs (s : State) (args : Inputs) :
    State.pushPc { s with inputs := args } = { s.pushPc with inputs := args } := by
  unfold State.pushPc
  split <;> rfl

theorem popPc_setInputs (s : State) (args : Inputs) :
    State.popPc { s with inputs := args } = { s.popPc with inputs := args } := by
  unfold State.popPc
  split <;> rfl

theorem pushPc_timerTick (s : State) : s.timerTick.pushPc = s.pushPc.timerTick := by
  unfold State.pushPc State.timerTick
  split <;> rfl

theorem popPc_timerTick (s : State) : s.timerTick.popPc = s.popPc.timerTick := by
  unfold State.popPc State.timerTick
  split <;> rfl

/-- Settles O12: only CALL and RET, which look at SP, and the key wait, which looks at the keys, need more than the
equation of the instruction. -/
theorem inputsAreReadOnlyByTheirInstructions : Obligations.InputsAreReadOnlyByTheirInstructions := by
  refine ⟨fun i s k hkeys => ?_, fun i s b hrnd => ?_⟩
  · cases i with
    | skp x => exact absurd rfl (hkeys x).1
    | sknp x => exact absurd rfl (hkeys x).2.1
    | ldVxKey x => exact absurd rfl (hkeys x).2.2
    | call nnn => simp [pushPc_setInputs, State.jumpTo]
    | ret => simp [popPc_setInputs]
    | _ => rfl
  · cases i with
    | rnd x kk => exact absurd rfl (hrnd x kk)
    | ldVxKey x =>
      obtain ⟨k, hkey, hk⟩ | ⟨hkey, hk⟩ := exec_ldVxKey_cases x s
      · rw [hk]; exact exec_ldVxKey_of_some x hkey
      · rw [hk]; exact exec_ldVxKey_of_none x hkey
    | call nnn => simp [pushPc_setInputs, State.jumpTo]
    | ret => simp [popPc_setInputs]
    | _ => rfl

/-- Settles O48, as O12: a tick writes DT and ST, which no instruction but the three moves looks at or writes. -/
theorem tickCommutesWithInstructionsThatReachNoTimer : Obligations.TickCommutesWithInstructionsThatReachNoTimer := by
  intro i s htimer
  cases i with
  | ldVxDt x => exact absurd rfl (htimer x).1
  | ldDtVx x => exact absurd rfl (htimer x).2.1
  | ldStVx x => exact absurd rfl (htimer x).2.2
  | ldVxKey x =>
    obtain ⟨k, hkey, hk⟩ | ⟨hkey, hk⟩ := exec_ldVxKey_cases x s
    · rw [hk]; exact exec_ldVxKey_of_some x hkey
    · rw [hk]; exact exec_ldVxKey_of_none x hkey
  | call nnn => rw [exec_call, exec_call, pushPc_timerTick]; rfl
  | ret => rw [exec_ret, exec_ret, popPc_timerTick]; rfl
  | _ => rfl

end Sys2Proof.Machine
end

section
/-!
PROOFS. The instructions that write a result and then the flag (spec R161, R168 to R172), and those that set I
(spec R191, R192).
-/
namespace Sys2Proof.Machine

/-- The result in VX, where X is not F (R161). -/
theorem getV_setVFlag_result (s : State) {x : Reg} (b : Byte) (c : Bool) (hx : x ≠ 15) :
    (s.setVFlag x b c).advance.getV x = b := by
  rw [getV_advance, getV_setVFlag, if_neg hx, if_pos rfl]

/-- The flag in VF, whatever X is (R21, R161). -/
theorem getV_setVFlag_flag (s : State) (x : Reg) (b : Byte) (c : Bool) :
    ((s.setVFlag x b c).advance.getV 15).toNat = if c = true then 1 else 0 := by
  rw [getV_advance, getV_setVFlag, if_pos rfl, flagByte_toNat]

theorem setVFlag_advance_pcAdvanced (s : State) (x : Reg) (b : Byte) (c : Bool) :
    PcAdvanced 2 s (s.setVFlag x b c).advance := (s.setVFlag x b c).advance_pcAdvanced

/-- Every register but VX and VF, and every other piece, reads as before. -/
theorem setVFlag_advance_changesOnly (s : State) (x : Reg) (b : Byte) (c : Bool) :
    ChangesOnly [.v x, .v 15, .pc] s (s.setVFlag x b c).advance := by
  intro p hp
  cases p with
  | v r =>
    have hne : r ≠ vF ∧ r ≠ x := by simp_all
    exact (getV_setVFlag s x r b c).trans (by rw [if_neg hne.1, if_neg hne.2])
  | pc => simp at hp
  | _ => rfl

/-- Settles O24: the sum of bytes is the sum of numbers modulo 2^8, and the carry is said of numbers. -/
theorem addRegisterWritesSumThenCarry : Obligations.AddRegisterWritesSumThenCarry := by
  refine fun x y s => ⟨_, exec_addReg x y s, fun hx => ?_, ?_, setVFlag_advance_pcAdvanced _ _ _ _,
    setVFlag_advance_changesOnly _ _ _ _⟩
  · rw [getV_setVFlag_result s _ _ hx, BitVec.toNat_add]
  · rw [getV_setVFlag_flag]
    simp only [carryOut, decide_eq_true_eq]

/-- The difference of bytes is the difference of numbers modulo 2^8 (R169, R171). -/
theorem byte_sub_toNat (a b : Byte) : (a - b).toNat = (a.toNat + 256 - b.toNat) % 256 := by
  have hb := b.isLt
  rw [BitVec.toNat_sub]
  omega

/-- Settles O25: the two subtractions differ in the order of the operands. -/
theorem subtractionsWriteDifferenceThenNoBorrow : Obligations.SubtractionsWriteDifferenceThenNoBorrow := by
  have hresult : ∀ (s : State) (x : Reg) (a b : Byte), x ≠ 15 →
      ((s.setVFlag x (a - b) (noBorrow a b)).advance.getV x).toNat = (a.toNat + 256 - b.toNat) % 256 :=
    fun s x a b hx => by rw [getV_setVFlag_result s _ _ hx, byte_sub_toNat]
  have hflag : ∀ (s : State) (x : Reg) (a b : Byte),
      ((s.setVFlag x (a - b) (noBorrow a b)).advance.getV 15).toNat = if b.toNat ≤ a.toNat then 1 else 0 :=
    fun s x a b => by rw [getV_setVFlag_flag]; simp only [noBorrow, decide_eq_true_eq]
  exact fun x y s =>
    ⟨⟨_, exec_subReg x y s, hresult s x _ _, hflag s x _ _, setVFlag_advance_pcAdvanced _ _ _ _,
        setVFlag_advance_changesOnly _ _ _ _⟩,
      ⟨_, exec_subn x y s, hresult s x _ _, hflag s x _ _, setVFlag_advance_pcAdvanced _ _ _ _,
        setVFlag_advance_changesOnly _ _ _ _⟩⟩

/-- The bit shifted out to the right is the remainder by 2 (R170). -/
theorem shiftOutLow_toNat (a : Byte) : (if shiftOutLow a = true then 1 else 0) = a.toNat % 2 := by
  revert a; decide

/-- The bit shifted out to the left is the quotient by 128 (R172). -/
theorem shiftOutHigh_toNat (a : Byte) : (if shiftOutHigh a = true then 1 else 0) = a.toNat / 128 := by
  revert a; decide

/-- Settles O26, by the shifts and the bits shifted out as quotients and remainders. -/
theorem shiftsMoveVxByOneThenTheBitShiftedOut : Obligations.ShiftsMoveVxByOneThenTheBitShiftedOut := by
  refine fun x y s => ⟨⟨_, exec_shr x y s, fun hx => ?_, ?_, setVFlag_advance_pcAdvanced _ _ _ _,
    setVFlag_advance_changesOnly _ _ _ _⟩, ⟨_, exec_shl x y s, fun hx => ?_, ?_, setVFlag_advance_pcAdvanced _ _ _ _,
    setVFlag_advance_changesOnly _ _ _ _⟩⟩
  · rw [getV_setVFlag_result s _ _ hx, BitVec.toNat_ushiftRight, Nat.shiftRight_one]
  · rw [getV_setVFlag_flag, shiftOutLow_toNat]
  · rw [getV_setVFlag_result s _ _ hx, BitVec.toNat_shiftLeft, Nat.shiftLeft_eq]
  · rw [getV_setVFlag_flag, shiftOutHigh_toNat]

/-- Settles O31: the sum and its carry are taken from the old I and the old VX, VF included. -/
theorem addIndexWrapsAndWritesCarry : Obligations.AddIndexWrapsAndWritesCarry := by
  refine fun x s => ⟨_, exec_addI x s, ?_, ?_, State.advance_pcAdvanced _, fun p hp => ?_⟩
  · rw [State.advance_i, State.setVF_i, BitVec.toNat_add, byteToWord_toNat]
  · rw [getV_advance, getV_setVF, if_pos rfl, flagByte_toNat]
    simp only [indexCarry, decide_eq_true_eq]
  · cases p with
    | v r =>
      have hne : r ≠ vF := by simp_all
      exact (getV_setVF _ _ r).trans (if_neg hne)
    | i | pc => simp at hp
    | _ => rfl

/-- Settles O30, by the address of a glyph as a number. -/
theorem loadFontSetsIToFiveTimesVx : Obligations.LoadFontSetsIToFiveTimesVx := fun x s =>
  ⟨_, exec_ldFont x s, glyphAddr_toNat _, State.advance_pcAdvanced _, s.setI_advance_changesOnly _⟩

end Sys2Proof.Machine
end

section
/-!
PROOFS. The keypad instructions (spec R220 to R223) and where each instruction leaves PC (spec R124).
-/
namespace Sys2Proof.Machine

/-- The key numbered by a byte, down (R220). -/
theorem key_eq_true_iff (s : State) (b : Byte) :
    s.key b = true ↔ b.toNat ≤ 15 ∧ s.inputs.keys.getLsbD b.toNat = true := by
  simp only [State.key, Bool.and_eq_true, decide_eq_true_eq]

/-- The least key down (R223). -/
theorem leastKey_eq_some_iff (s : State) (k : Nat) : s.leastKey = some k ↔
    k < 16 ∧ s.inputs.keys.getLsbD k = true ∧ ∀ j < k, s.inputs.keys.getLsbD j = false := by
  rw [State.leastKey, List.find?_range_eq_some]
  simp only [List.mem_range, Bool.not_eq_true']
  tauto

/-- No key down (R223). -/
theorem leastKey_eq_none_iff (s : State) :
    s.leastKey = none ↔ ∀ k : Fin 16, s.inputs.keys.getLsbD k = false := by
  rw [State.leastKey, List.find?_range_eq_none, Fin.forall_iff]
  simp only [Bool.not_eq_true']

theorem skipIf_not_pcAdvanced (s : State) (c : Bool) :
    PcAdvanced (if c = true then 2 else 4) s (s.skipIf (!c)) := by
  cases c with
  | false => exact s.skipIf_pcAdvanced true
  | true => exact s.skipIf_pcAdvanced false

/-- Settles O43, by the two skips on the key numbered VX. -/
theorem keySkipsTestTheKeyNumberedByVx : Obligations.KeySkipsTestTheKeyNumberedByVx := by
  intro x s
  simp only [← key_eq_true_iff]
  exact ⟨⟨_, exec_skp x s, s.skipIf_changesOnly_pc _, s.skipIf_pcAdvanced _⟩,
    ⟨_, exec_sknp x s, s.skipIf_changesOnly_pc _, skipIf_not_pcAdvanced s _⟩⟩

/-- Settles O44, by the least key down, which is `k` or none. -/
theorem keyWaitLoadsTheLeastKeyOrWaits : Obligations.KeyWaitLoadsTheLeastKeyOrWaits := by
  refine fun x s => ⟨fun k hdown hleast => ?_, fun hup => ?_⟩
  · have hk := k.isLt
    have hkey : s.leastKey = some k.val := (leastKey_eq_some_iff s k).mpr
      ⟨hk, hdown, fun j hj => hleast ⟨j, by omega⟩ hj⟩
    refine ⟨_, exec_ldVxKey_of_some x hkey, ?_, s.setV_advance_pcAdvanced x _, s.setV_advance_changesOnly x _⟩
    rw [getV_advance, getV_setV_same, BitVec.toNat_ofNat, Nat.mod_eq_of_lt (by omega)]
  · exact exec_ldVxKey_of_none x ((leastKey_eq_none_iff s).mpr hup)

/-- The key wait advances exactly when some key is down (R124, R223). -/
theorem ldVxKey_pc {x : Reg} {s t : State} (h : exec (.ldVxKey x) s = .next t) :
    if ∃ k : Fin 16, s.inputs.keys.getLsbD k = true then PcAdvanced 2 s t else t.pc = s.pc := by
  obtain ⟨k, hkey, hk⟩ | ⟨hkey, hk⟩ := exec_ldVxKey_cases x s
  · obtain ⟨hlt, hdown, -⟩ := (leastKey_eq_some_iff s k).mp hkey
    cases h.symm.trans hk
    rw [if_pos ⟨⟨k, hlt⟩, hdown⟩]
    exact s.setV_advance_pcAdvanced x _
  · have hup := (leastKey_eq_none_iff s).mp hkey
    cases h.symm.trans hk
    rw [if_neg (not_exists.mpr fun j => Bool.eq_false_iff.mp (hup j))]

/-- Settles O11: the jumps, CALL, RET, the skips and the key wait each by its own rule; every other instruction ends in
the default advance. -/
theorem pcEndsWhereItsInstructionSays : Obligations.PcEndsWhereItsInstructionSays := by
  intro i s t h
  cases i with
  | jp nnn | call nnn => cases h; exact addrOf_toNat nnn
  | jpV0 nnn => cases h; exact byteToWord_add_addrOf_toNat _ nnn
  | ret =>
    cases h
    intro k
    split
    · next hzero => rw [popPc_of_zero s hzero]; exact s.advance_pcAdvanced
    · intro hk
      rw [(popPc_of_sp_eq_succ hk).2, word_add_two_toNat]
  | seImm x kk => cases h; simpa only [BitVec.toNat_inj] using s.skipIf_beq_pcAdvanced (s.getV x) kk
  | seReg x y => cases h; simpa only [BitVec.toNat_inj] using s.skipIf_beq_pcAdvanced (s.getV x) (s.getV y)
  | sneImm x kk => cases h; simpa only [BitVec.toNat_inj] using s.skipIf_bne_pcAdvanced (s.getV x) kk
  | sneReg x y => cases h; simpa only [BitVec.toNat_inj] using s.skipIf_bne_pcAdvanced (s.getV x) (s.getV y)
  | skp x => cases h; exact s.skipIf_pcAdvanced _
  | sknp x => cases h; exact skipIf_not_pcAdvanced s _
  | ldVxKey x => exact ldVxKey_pc h
  | _ => cases h; exact State.advance_pcAdvanced _

end Sys2Proof.Machine
end

section
/-!
PROOFS. CALL (spec R142) and the pairing of calls and returns (R140).
-/
namespace Sys2Proof.Machine

/-- CALL with room writes PC, SP and the entry at SP. -/
theorem call_changesOnly (s : State) (w : Word) (k : Fin 16) (hk : s.sp.toNat = k.val) :
    ChangesOnly [.pc, .sp, .stack k] s (s.pushPc.jumpTo w) := by
  obtain ⟨-, hentry⟩ := pushPc_of_lt s (by omega)
  intro p hp
  cases p with
  | pc | sp => simp at hp
  | stack j =>
    have hne : j ≠ k := by simp_all
    have hval : ¬ j.val = s.sp.toNat := fun h => hne (Fin.ext (h.trans hk))
    exact (hentry j).trans (if_neg hval)
  | _ => simp [Piece.same]

/-- Settles O16, by the push with room and without. -/
theorem callPushesItsOwnAddress : Obligations.CallPushesItsOwnAddress := by
  refine fun nnn s => ⟨_, exec_call nnn s, addrOf_toNat nnn, fun k hk => ?_, fun hfull => ?_⟩
  · obtain ⟨hsp, hentry⟩ := pushPc_of_lt s (by omega)
    exact ⟨(hentry k).trans (if_pos hk.symm), hsp.trans (by rw [hk]), call_changesOnly s _ k hk⟩
  · rw [pushPc_of_ge s hfull.ge]
    exact s.jumpTo_changesOnly_pc _

/-- A list of instructions is executed by executing its first part and then the rest. -/
theorem execAll_append {is js : List Instr} {s t : State} (h : execAll is s = .next t) :
    execAll (is ++ js) s = execAll js t := by
  induction is generalizing s with
  | nil => cases h; rfl
  | cons i is ih =>
    obtain ⟨u, hu⟩ := exec_total i s
    simp only [execAll, hu] at h
    simp only [List.cons_append, execAll, hu]
    exact ih h

/-- Everything reads the same in both states but PC and the `n` stack entries from SP up. -/
def SameButUsedEntries (n : Nat) (s t : State) : Prop :=
  ∀ p : Piece, p ≠ .pc →
    (∀ k : Fin 16, p = .stack k → k.val < s.sp.toNat ∨ s.sp.toNat + n ≤ k.val) → p.same s t

theorem SameButUsedEntries.sp {n : Nat} {s t : State} (h : SameButUsedEntries n s t) : t.sp = s.sp :=
  h .sp (by simp) (by simp)

/-- The entries below SP are never among those used. -/
theorem SameButUsedEntries.stack_below {n : Nat} {s t : State} (h : SameButUsedEntries n s t) {k : Fin 16}
    (hk : k.val < s.sp.toNat) : t.stack[k] = s.stack[k] :=
  h (.stack k) (by simp) (by rintro j ⟨rfl⟩; exact .inl hk)

/-- The calls and then as many returns. -/
def callsAndReturns (targets : List Addr12) : List Instr :=
  targets.map Instr.call ++ List.replicate targets.length .ret

theorem callsAndReturns_cons (a : Addr12) (rest : List Addr12) :
    callsAndReturns (a :: rest) = .call a :: (callsAndReturns rest ++ [.ret]) := by
  simp [callsAndReturns, List.replicate_succ']

/-- One CALL around a list of instructions that uses `n` entries above its own: the RET pops the entry that the CALL
pushed, because nothing between them writes it. -/
theorem call_body_return (a : Addr12) {body : List Instr} {n : Nat} {s u : State} (hroom : s.sp.toNat < 16)
    (hbody : execAll body (s.pushPc.jumpTo (addrOf a)) = .next u)
    (hsame : SameButUsedEntries n (s.pushPc.jumpTo (addrOf a)) u) :
    execAll (.call a :: (body ++ [.ret])) s = .next u.popPc ∧ PcAdvanced 2 s u.popPc ∧
      SameButUsedEntries (n + 1) s u.popPc := by
  obtain ⟨hsp, hentry⟩ := pushPc_of_lt s hroom
  have husp : u.sp.toNat = s.sp.toNat + 1 := by rw [hsame.sp]; exact hsp
  obtain ⟨hpop, hpc⟩ := popPc_of_sp_eq_succ (k := ⟨s.sp.toNat, hroom⟩) husp
  have hpushed : u.stack[(⟨s.sp.toNat, hroom⟩ : Fin 16)] = s.pc :=
    (hsame.stack_below (by rw [State.jumpTo_sp, hsp]; exact Nat.lt_succ_self _)).trans ((hentry _).trans (if_pos rfl))
  refine ⟨?_, pcAdvanced_of_pc_eq_add (hpc.trans (by rw [hpushed]; rfl)), fun p hpcne hused => ?_⟩
  · rw [execAll, exec_call]
    exact (execAll_append hbody).trans rfl
  · by_cases hpsp : p = .sp
    · subst hpsp
      exact BitVec.eq_of_toNat_eq hpop
    · have hcall : p ∉ [.pc, .sp, .stack ⟨s.sp.toNat, hroom⟩] := by
        simp only [List.mem_cons, List.not_mem_nil, or_false, hpcne, hpsp, false_or]
        intro hp
        have := hused _ hp
        simp only at this
        omega
      have hret : p ∉ [.pc, .sp] := by simp [hpcne, hpsp]
      have hinner : p.same (s.pushPc.jumpTo (addrOf a)) u := by
        refine hsame p hpcne fun k hk => ?_
        have := hused k hk
        rw [State.jumpTo_sp, hsp]
        omega
      exact ((call_changesOnly s _ _ rfl p hcall).trans hinner).trans (popPc_changesOnly_pc_sp u p hret)

/-- Calls within the room of the stack and as many returns: SP and every entry that was in use are as before, and PC is
after the first CALL where there is one. By induction on the calls, the first being the outermost. -/
theorem execAll_callsAndReturns (targets : List Addr12) (s : State) (hroom : s.sp.toNat + targets.length ≤ 16) :
    ∃ t, execAll (callsAndReturns targets) s = .next t ∧ (targets ≠ [] → PcAdvanced 2 s t) ∧
      SameButUsedEntries targets.length s t := by
  induction targets generalizing s with
  | nil => exact ⟨s, rfl, fun h => absurd rfl h, fun p _ _ => ChangesOnly.refl [] s p List.not_mem_nil⟩
  | cons a rest ih =>
    rw [List.length_cons] at hroom
    have hfree : s.sp.toNat < 16 := by omega
    have hsp := (pushPc_of_lt s hfree).1
    obtain ⟨u, hbody, -, hsame⟩ := ih (s.pushPc.jumpTo (addrOf a)) (by rw [State.jumpTo_sp, hsp]; omega)
    obtain ⟨hrun, hpc, hframe⟩ := call_body_return a hfree hbody hsame
    rw [callsAndReturns_cons]
    exact ⟨u.popPc, hrun, fun _ => hpc, hframe⟩

/-- Settles O20, by the induction on the calls. -/
theorem nestedCallsReturnToTheFirst : Obligations.NestedCallsReturnToTheFirst := by
  intro targets s hne hroom
  obtain ⟨t, hrun, hpc, hframe⟩ := execAll_callsAndReturns targets s hroom
  exact ⟨t, hrun, hpc hne, hframe⟩

end Sys2Proof.Machine
end

section
/-!
PROOFS. The instructions that move bytes between the registers and memory at I (spec R193 to R196): the bytes written and
read back, and the frame of a store.
-/
namespace Sys2Proof.Machine

@[simp] theorem mem_bytePieces_iff (a n b : Nat) : Piece.mem b ∈ bytePieces a n ↔ a ≤ b ∧ b < a + n := by
  simp only [bytePieces, List.mem_map, List.mem_range, Piece.mem.injEq]
  constructor
  · rintro ⟨k, hk, rfl⟩; omega
  · rintro ⟨hlo, hhi⟩; exact ⟨b - a, by omega, by omega⟩

@[simp] theorem v_mem_regPieces_iff (x r : Reg) : Piece.v r ∈ regPieces x ↔ r ≤ x := by
  simp [regPieces]

/-- A store of bytes into canonical memory leaves every byte outside them, and every piece but memory and PC. -/
theorem store_changesOnly {s : State} (hwf : s.mem.wf = true) (a : Nat) (bs : List Byte) :
    ChangesOnly (.pc :: bytePieces a bs.length) s { s with mem := memWriteBytes s.mem a bs }.advance := by
  intro p hp
  cases p with
  | pc => exact absurd List.mem_cons_self hp
  | mem b =>
    have hout : ¬ (a ≤ b ∧ b < a + bs.length) := fun h => hp (List.mem_cons_of_mem _ ((mem_bytePieces_iff _ _ _).mpr h))
    exact (memRead_memWriteBytes hwf a bs b).trans (if_neg fun h => hout ⟨h.1, h.2.1⟩)
  | _ => rfl

/-- Byte `k` of those stored at `a` is read back, where it is in memory. -/
theorem memRead_stored {m : Memory} (hwf : m.wf = true) {a k : Nat} {bs : List Byte} (hk : k < bs.length)
    (hin : a + k ≤ 0xFFF) : memRead (memWriteBytes m a bs) (a + k) = bs.getD k 0 := by
  rw [memRead_memWriteBytes hwf, if_pos (by omega), Nat.add_sub_cancel_left]

/-- A store that begins above memory stores nothing (R63). -/
theorem memWriteBytes_of_gt (m : Memory) {a : Nat} (bs : List Byte) (h : 0xFFF < a) : memWriteBytes m a bs = m := by
  induction bs generalizing a with
  | nil => rfl
  | cons b rest ih =>
    have hdrop : memWrite m a b = m := if_neg (by omega)
    rw [memWriteBytes, hdrop, ih (by omega)]

/-- A decimal digit is one byte (R193). -/
theorem decimalDigits_toNat (b : Byte) (k : Fin 3) :
    ((decimalDigits b).getD k 0).toNat = [b.toNat / 100, b.toNat / 10 % 10, b.toNat % 10].getD k 0 := by
  have hb := b.isLt
  fin_cases k
  · exact Nat.mod_eq_of_lt (by omega)
  · exact Nat.mod_eq_of_lt (by omega)
  · exact Nat.mod_eq_of_lt (by omega)

/-- Settles O32: each digit is read back where its address is in memory. -/
theorem bcdStoresThreeDigits : Obligations.BcdStoresThreeDigits := by
  intro x s hwf
  have hdigit : ∀ k : Fin 3, s.i.toNat + k.val ≤ 0xFFF →
      (memRead (memWriteBytes s.mem s.i.toNat (decimalDigits (s.getV x))) (s.i.toNat + k.val)).toNat =
        [(s.getV x).toNat / 100, (s.getV x).toNat / 10 % 10, (s.getV x).toNat % 10].getD k 0 :=
    fun k hin => by rw [memRead_stored hwf k.isLt hin, decimalDigits_toNat]
  exact ⟨_, exec_ldBcd x s, hdigit 0, hdigit 1, hdigit 2, State.advance_pcAdvanced _,
    store_changesOnly hwf s.i.toNat (decimalDigits (s.getV x))⟩

/-- Settles O33: byte `k` of the block is register `k`. -/
theorem storeRegistersWritesTheBlock : Obligations.StoreRegistersWritesTheBlock := by
  intro x s hwf
  refine ⟨_, exec_storeRegs x s, fun k hk hin => ?_, State.advance_pcAdvanced _, ?_⟩
  · have hlt : k.val < (s.block x).length := by rw [block_length]; exact Nat.lt_succ_of_le hk
    exact (memRead_stored hwf hlt hin).trans (block_getD s x k hk)
  · have hframe := store_changesOnly hwf s.i.toNat (s.block x)
    rwa [block_length] at hframe

/-- Settles O34: a read outside memory is 0 by the guard of the read itself. -/
theorem loadRegistersReadsTheBlock : Obligations.LoadRegistersReadsTheBlock := by
  refine fun x s => ⟨_, exec_loadRegs x s, fun k hk => ?_, State.advance_pcAdvanced _, fun p hp => ?_⟩
  · rw [getV_advance, getV_loadBlock, if_pos hk]
    split
    · rfl
    · next hout => exact memRead_of_gt _ (by omega)
  · cases p with
    | pc => exact absurd List.mem_cons_self hp
    | v r =>
      have hr : ¬ r ≤ x := fun h => hp (List.mem_cons_of_mem _ ((v_mem_regPieces_iff x r).mpr h))
      exact (getV_loadBlock s x r).trans (if_neg hr)
    | _ => rfl

/-- A store above memory is the default advance alone. -/
theorem store_above_memory {s : State} (bs : List Byte) (h : 0xFFF < s.i.toNat) :
    { s with mem := memWriteBytes s.mem s.i.toNat bs }.advance = s.advance := by
  rw [memWriteBytes_of_gt s.mem bs h]

/-- Settles O35: above memory both stores are the default advance. -/
theorem storesAboveMemoryAreDropped : Obligations.StoresAboveMemoryAreDropped := by
  intro x s h
  exact ⟨⟨s.advance, (exec_storeRegs x s).trans (by rw [store_above_memory _ h]), rfl, s.advance_pcAdvanced,
      s.advance_changesOnly_pc⟩,
    ⟨s.advance, (exec_ldBcd x s).trans (by rw [store_above_memory _ h]), rfl, s.advance_pcAdvanced,
      s.advance_changesOnly_pc⟩⟩

/-- Settles O36: the load reads the block that the store wrote (O33, O34), and the registers above it stay. -/
theorem loadAfterStoreGivesTheRegistersBack : Obligations.LoadAfterStoreGivesTheRegistersBack := by
  intro x s hwf hin
  obtain ⟨t, ht, hstored, -, hframe⟩ := storeRegistersWritesTheBlock x s hwf
  obtain ⟨u, hu, hloaded, -, hframe'⟩ := loadRegistersReadsTheBlock x t
  have hi : t.i = s.i := hframe .i (by simp [bytePieces])
  refine ⟨t, u, ht, hu, fun r => ?_⟩
  by_cases hr : r ≤ x
  · have hle : s.i.toNat + r.val ≤ 0xFFF := by have : r.val ≤ x.val := hr; omega
    rw [hloaded r hr, hi, if_pos hle, hstored r hr hle]
  · have hu' : u.getV r = t.getV r := hframe' (.v r) (by simp [hr])
    exact hu'.trans (hframe (.v r) (by simp [bytePieces]))

/-- Settles O37: the two bytes of the fetch are those stored (O33). -/
theorem storedBytesAreFetchedAtOnce : Obligations.StoredBytesAreFetchedAtOnce := by
  intro x s hwf hi hx
  obtain ⟨t, ht, hstored, -, -⟩ := storeRegistersWritesTheBlock x s hwf
  have hhigh : memRead t.mem s.i.toNat = s.getV 0 := hstored 0 (Fin.zero_le x) (by simp; omega)
  have hlow : memRead t.mem (s.i.toNat + 1) = s.getV 1 := hstored 1 hx (by simp; omega)
  exact ⟨t, ht, by rw [toNat_memFetch_of_le _ hi, hhigh, hlow]⟩

end Sys2Proof.Machine
end

section
/-!
PROOFS. The sprite (spec R211 to R213): which cells it covers, and what is left after it is drawn once and twice.
-/
namespace Sys2Proof.Machine

/-- The rows drawn are the pixels of the sprite, whose place and height are registers and N (R211). -/
theorem rowsPixel_iff_spritePixel (s : State) (x y : Reg) (n : Nibble) (cx : Fin 64) (cy : Fin 32) :
    RowsPixel s.mem s.i.toNat (s.getV x).toNat (s.getV y).toNat n.toNat cx cy ↔ SpritePixel s x y n cx cy := by
  constructor
  · rintro ⟨r, hr, hy, c, hc, hx, hbit⟩
    exact ⟨c, r, hc, hr, hx, hy, hbit⟩
  · rintro ⟨c, r, hc, hr, hx, hy, hbit⟩
    exact ⟨r, hr, hy, c, hc, hx, hbit⟩

open Classical in
/-- What is drawn: the cells of the sprite are toggled, no other, and the collision is a cell of it that was 1. -/
theorem sprite_spec (s : State) (x y : Reg) (n : Nibble) :
    (∀ cx cy, Framebuffer.cell (s.sprite x y n).fb cx cy =
      if SpritePixel s x y n cx cy then !Framebuffer.cell s.fb cx cy else Framebuffer.cell s.fb cx cy) ∧
    ((s.sprite x y n).hit = true ↔ ∃ cx cy, SpritePixel s x y n cx cy ∧ Framebuffer.cell s.fb cx cy = true) := by
  have hn := n.isLt
  have hspec := rowsUpTo_spec s.mem s.i.toNat (s.getV x).toNat (s.getV y).toNat n.toNat (by omega)
    { fb := s.fb, hit := false }
  simp only [rowsPixel_iff_spritePixel, Bool.false_eq_true, false_or] at hspec
  exact hspec

/-- A DRW writes the framebuffer, the draw flag, VF and PC. -/
theorem setDisplay_setVF_advance_changesOnly (s : State) (fb : Framebuffer) (draw c : Bool) :
    ChangesOnly (.v 15 :: .draw :: .pc :: cellPieces) s ({ s with fb := fb, draw := draw }.setVF c).advance := by
  intro p hp
  cases p with
  | v r =>
    have hne : r ≠ vF := fun h => hp (h ▸ List.mem_cons_self)
    exact (getV_setVF _ c r).trans (if_neg hne)
  | draw | pc | cell x y => simp at hp
  | _ => rfl

/-- Settles O40, by what the sprite toggles and hits. -/
theorem drawTogglesTheSpritesCells : Obligations.DrawTogglesTheSpritesCells := by
  intro x y n s
  obtain ⟨hcell, hhit⟩ := sprite_spec s x y n
  have hvF : ∀ b, (s.sprite x y n).hit = b → State.getV (({ s with fb := (s.sprite x y n).fb, draw := true }).setVF
      (s.sprite x y n).hit).advance 15 = flagByte b := fun b hb => by rw [getV_advance, getV_setVF, if_pos rfl, hb]
  exact ⟨_, exec_drw x y n s, fun cx cy hp => (hcell cx cy).trans (if_pos hp),
    fun cx cy hp => (hcell cx cy).trans (if_neg hp), fun h => hvF true (hhit.mpr h),
    fun h => hvF false (Bool.eq_false_iff.mpr (mt hhit.mp h)), rfl, State.advance_pcAdvanced _,
    setDisplay_setVF_advance_changesOnly s _ _ _⟩

/-- The cells that a sprite covers are determined by VX, VY, I and memory. -/
theorem spritePixel_congr {s t : State} {x y : Reg} (hx : t.getV x = s.getV x) (hy : t.getV y = s.getV y)
    (hi : t.i = s.i) (hmem : ∀ a, memRead t.mem a = memRead s.mem a) (n : Nibble) (cx : Fin 64) (cy : Fin 32) :
    SpritePixel t x y n cx cy ↔ SpritePixel s x y n cx cy := by
  simp only [SpritePixel, hx, hy, hi, hmem]

/-- A draw whose place does not lie in VF leaves the sprite and its place as they were. -/
theorem spritePixel_of_frame {s t : State} {x y : Reg} (hx : x ≠ 15) (hy : y ≠ 15)
    (h : ChangesOnly (.v 15 :: .draw :: .pc :: cellPieces) s t) (n : Nibble) (cx : Fin 64) (cy : Fin 32) :
    SpritePixel t x y n cx cy ↔ SpritePixel s x y n cx cy :=
  spritePixel_congr (h (.v x) (by simp [cellPieces, hx])) (h (.v y) (by simp [cellPieces, hy]))
    (h .i (by simp [cellPieces])) (fun a => h (.mem a) (by simp [cellPieces])) n cx cy

/-- Settles O41: the second draw covers the same cells (O40), so each is toggled twice, and a cell that it turns off is
one that the first draw turned on. -/
theorem drawingTwiceRestoresTheFramebuffer : Obligations.DrawingTwiceRestoresTheFramebuffer := by
  intro x y n s hx hy
  obtain ⟨t, ht, hon, hoff, -, -, -, -, hframe⟩ := drawTogglesTheSpritesCells x y n s
  obtain ⟨u, hu, hon', hoff', hhit, hmiss, -, -, -⟩ := drawTogglesTheSpritesCells x y n t
  have hsame := spritePixel_of_frame hx hy hframe n
  have hturned : ∀ cx cy, SpritePixel s x y n cx cy →
      (Framebuffer.cell t.fb cx cy = true ↔ Framebuffer.cell s.fb cx cy = false) := fun cx cy hp => by
    rw [hon cx cy hp, Bool.not_eq_true']
  have hiff : (∃ cx cy, SpritePixel t x y n cx cy ∧ Framebuffer.cell t.fb cx cy = true) ↔
      ∃ cx cy, SpritePixel s x y n cx cy ∧ Framebuffer.cell s.fb cx cy = false := by
    simp only [hsame]
    exact exists_congr fun cx => exists_congr fun cy => and_congr_right (hturned cx cy)
  refine ⟨t, u, ht, hu, Framebuffer.ext_cell fun cx cy => ?_, fun h => hhit (hiff.mpr h), fun h => hmiss (mt hiff.mp h)⟩
  by_cases hp : SpritePixel s x y n cx cy
  · rw [hon' cx cy ((hsame cx cy).mpr hp), hon cx cy hp, Bool.not_not]
  · rw [hoff' cx cy (mt (hsame cx cy).mp hp), hoff cx cy hp]

end Sys2Proof.Machine
end
